-- ==== Sys2Proof/Word.lean ====
section
/-! DEFINITION. The value types of the engine: stream bytes, instruction words.
A memory cell is an unbounded signed integer, `Int` (R12; DESIGN CHOICE, log 2: unsafe for cells of fewer than 33 bits). -/

namespace Sys2Proof

/-- One byte of the instruction stream (R17). -/
abbrev Byte := BitVec 8

/-- One instruction word: every instruction is exactly one 64-bit word (R50). -/
abbrev Word := BitVec 64

end Sys2Proof
end

