-- ==== Sys2Proof/Config.lean ====
section
/-! DEFINITION. The parameters of R6: `PC_W` and the two configuration straps of R20. `CELL_W` needs no
field, since cells are unbounded integers, as R6 allows (log 2). Nothing in this hardware leaves a
value open (R41: no oracle, no draw), so there is no free value here. -/

namespace Sys2Proof.Config

/-- `PC_W`, the width of the stream cursor; a stream has fewer than `2 ^ PC_W` bytes (R6, R15). -/
abbrev pcWidth : Nat := 64

/-- The strap `WRITE_SRC_MODE`: which value WRITE takes as its source cell index (R20, R108). -/
inductive WriteSrcMode where
  /-- The whole 32-bit field C, displacement bits included: the reference behaviour and the default. -/
  | raw
  /-- C' = w[31:6]: the documented compatibility alternative. -/
  | shifted
deriving DecidableEq, Repr

/-- The two straps, sampled at reset and constant for the run (R20). -/
structure Straps where
  /-- `WRITE_SRC_MODE`. -/
  writeSrcMode : WriteSrcMode
  /-- `IMM_SIGNED`: LOAD's immediate is sign-extended (true) or zero-extended (false). -/
  immSigned : Bool
deriving DecidableEq, Repr

/-- The default straps of R20: `RAW` and signed. -/
def defaultStraps : Straps where
  writeSrcMode := .raw
  immSigned := true

end Sys2Proof.Config
end

