-- ==== Sys2Proof/Machine/State.lean ====
section
/-! DEFINITION. The state of the engine (10_state.md) as plain data, the reasons a step can stop, and the reset state. -/

namespace Sys2Proof.Machine

/-- The run state of R18. -/
inductive Status where
  /-- Steps happen. -/
  | running
  /-- The stream was exhausted: the successful end (R81). -/
  | halted
  /-- A fault ended the run (R125). -/
  | failed
deriving DecidableEq, Repr

/-- The three faults the engine raises (R120): the values of `fault_kind` other than None. -/
inductive EngineFault where
  /-- Raised by dispatch of a word with an illegal opcode (R121). -/
  | unknownOpcode
  /-- Raised by the four instructions when an index is outside 0..1023 (R122). -/
  | addressOutOfRange
  /-- Raised by fetch at a tail of one to seven bytes (R123). -/
  | truncatedStream
deriving DecidableEq, Repr

/-- The data space: (index, value) pairs, indices strictly rising, no value 0; a cell that is not listed holds 0, its reset
value (R11, R25). A cell is an integer, so a pair holds an integer and not a byte (DESIGN CHOICE, log 1:
safe). -/
abbrev Memory := List (Nat × Int)

/-- Everything the spec gives the machine. -/
structure State where
  /-- The memory array of R11. -/
  mem : Memory
  /-- The stream cursor of R14: the byte offset of the next word to fetch, a natural number (DESIGN CHOICE, log 5: safe). -/
  pc : Nat
  /-- The run state of R18. -/
  status : Status
  /-- The fault record's kind (R19); `none` is the spec's own value None. -/
  faultKind : Option EngineFault
  /-- The fault record's word index (R19). -/
  faultIndex : Nat
  /-- The instruction stream `S` of R17, an input of the run; its length is `L` (DESIGN CHOICE, log 3:
  unsafe for State.reset alone). -/
  stream : List Byte
  /-- The straps of R20 as sampled at reset. -/
  straps : Config.Straps
deriving DecidableEq, Repr

/-- Why `step` gives no next state. A fault of the ENGINE is no such reason: `raise` is a next state (R125). -/
inductive Fault where
  /-- Raised by `step` alone, where `status` is Halted: there is no step (R86). Safe: nothing is proved of a further step. -/
  | alreadyHalted
  /-- Raised by `step` alone, where `status` is Failed: there is no step (R86). Safe: nothing is proved of a further step. -/
  | alreadyFailed
deriving DecidableEq, Repr

/-- Why an instruction is refused. -/
inductive Refusal where
  /-- Raised by `exec` for an instruction without a meaning; no arm raises it now. Safe. -/
  | notModelled (mnemonic : String)
deriving DecidableEq, Repr

/-- The state reset establishes (R25, R140) for the straps and the stream presented with it (R142). -/
def State.resetWith (straps : Config.Straps) (stream : List Byte) : State where
  mem := []
  pc := 0
  status := .running
  faultKind := none
  faultIndex := 0
  stream := stream
  straps := straps

/-- The machine right after reset, with the default straps (R20; DEDUCED, log 4: unsafe) and nothing loaded: the empty
stream, which R17 allows (DESIGN CHOICE, log 3: unsafe). -/
def State.reset : State := State.resetWith Config.defaultStraps []

end Sys2Proof.Machine
end

