-- ==== Sys2Proof/Machine/Ops.lean ====
section
/-! DEFINITION. The named operations over the state: the memory array's reads and writes with the range check, fault entry,
completion of an instruction, halting; and the numeric codes of the read-only registers. -/

namespace Sys2Proof.Machine

/-- `InRange(a)` of R8, on the whole integer (R24, R36). -/
abbrev InRange (a : Int) : Prop := 0 ≤ a ∧ a ≤ 1023

/-- The value of cell `k`: the listed one, else 0. -/
def Memory.get : Memory → Nat → Int
  | [], _ => 0
  | (j, v) :: rest, k => if j = k then v else Memory.get rest k

/-- The memory without an entry for cell `k`. -/
def Memory.erase (m : Memory) (k : Nat) : Memory := m.filter (fun p => p.1 != k)

/-- The memory with the value `v` listed for cell `k`, in its place in the rising order. -/
def Memory.insert : Memory → Nat → Int → Memory
  | [], k, v => [(k, v)]
  | (j, w) :: rest, k, v =>
    if k < j then (k, v) :: (j, w) :: rest
    else if k = j then (k, v) :: rest
    else (j, w) :: Memory.insert rest k v

/-- Cell `k` holds `v` afterwards, no other cell changes; the canonical form is kept, so 0 is never listed. -/
def Memory.set (m : Memory) (k : Nat) (v : Int) : Memory :=
  if v = 0 then m.erase k else m.insert k v

/-- The canonical form from index `lo` on: indices rising from at least `lo`, all below 1024, no value 0. -/
def Memory.wfFrom (lo : Nat) : Memory → Bool
  | [] => true
  | (k, v) :: rest =>
    decide (lo ≤ k) && decide (k < 1024) && decide (v ≠ 0) && Memory.wfFrom (k + 1) rest

/-- The memory is in canonical form. -/
def Memory.wf (m : Memory) : Bool := m.wfFrom 0

/-- The range check of an index: `if not InRange(a) then raise AddressOutOfRange` (R36). -/
def checkIndex (a : Int) : Except EngineFault Unit :=
  if InRange a then .ok () else .error .addressOutOfRange

/-- `MemRead(a, 1)` of R8. -/
def memRead (m : Memory) (a : Int) : Except EngineFault Int :=
  if InRange a then .ok (m.get a.toNat) else .error .addressOutOfRange

/-- `MemWrite(a, 1, v)` of R8. -/
def memWrite (m : Memory) (a : Int) (v : Int) : Except EngineFault Memory :=
  if InRange a then .ok (m.set a.toNat v) else .error .addressOutOfRange

/-- `raise E(idx)` with `idx = pc / 8`: the whole of fault entry (R8, R125). There is no return from it (R128). -/
def raiseFault (s : State) (k : EngineFault) : State :=
  { s with status := .failed, faultKind := some k, faultIndex := s.pc / 8 }

/-- The end of a run on an exhausted stream: `status <- Halted`, nothing else changes (R81). -/
def halt (s : State) : State := { s with status := .halted }

/-- The effect of an instruction that completed with the array `m`: the array is updated and the cursor moves on (R84). -/
def advanceWith (s : State) (m : Memory) : State := { s with mem := m, pc := s.pc + 8 }

/-- How an instruction ends: its array and `pc + 8`, or the entry of the fault it raised, which writes no cell (R9, R125). -/
def complete (s : State) (r : Except EngineFault Memory) : Host.Outcome State Fault Refusal :=
  match r with
  | .ok m => .next (advanceWith s m)
  | .error k => .next (raiseFault s k)

/-- The two bits of `status` (R18). -/
def statusCode : Status → BitVec 2
  | .running => 0#2
  | .halted => 1#2
  | .failed => 2#2

/-- The two bits of `fault_kind` (R120). -/
def faultCode : Option EngineFault → BitVec 2
  | none => 0#2
  | some .unknownOpcode => 1#2
  | some .addressOutOfRange => 2#2
  | some .truncatedStream => 3#2

/-- The bit of `WRITE_SRC_MODE` (R20). -/
def writeSrcModeCode : Config.WriteSrcMode → BitVec 1
  | .raw => 0#1
  | .shifted => 1#1

/-- The bit of `IMM_SIGNED` (R20). -/
def immSignedCode : Bool → BitVec 1
  | false => 0#1
  | true => 1#1

end Sys2Proof.Machine
end

