-- ==== Sys2Proof/Machine/Operands.lean ====
section
/-! DEFINITION. How each operand is formed from the fields of the word (R60) and the addressing modes (R48). -/

namespace Sys2Proof.Machine

/-- `sext` of the 32-bit field, as an integer (R8). -/
def sext32 (c : BitVec 32) : Int := c.toInt

/-- `zext` of the 32-bit field, as an integer (R8). -/
def zext32 (c : BitVec 32) : Int := c.toNat

/-- LOAD's immediate: C sign-extended where `IMM_SIGNED`, else zero-extended (R91). -/
def loadImmediate (immSigned : Bool) (c : BitVec 32) : Int :=
  if immSigned then sext32 c else zext32 c

/-- B as a cell index: unsigned, never sign-extended (R53). -/
def indexB (b : BitVec 28) : Int := b.toNat

/-- C as a cell index of READ and ABS: unsigned, `IMM_SIGNED` does not apply (R60, R61). -/
def indexC (c : BitVec 32) : Int := c.toNat

/-- The raw field C of a WRITE word, its displacement bits included: `64 * C' + D` (R55). -/
def rawField (cp : BitVec 26) (d : BitVec 6) : BitVec 32 := cp ++ d

/-- `src`, WRITE's source cell index in each mode (R108). -/
def writeSource (mode : Config.WriteSrcMode) (cp : BitVec 26) (d : BitVec 6) : Int :=
  match mode with
  | .raw => (rawField cp d).toNat
  | .shifted => cp.toNat

/-- D as a displacement: unsigned, 0..63 (R60). -/
def displacement (d : BitVec 6) : Int := d.toNat

end Sys2Proof.Machine
end

