-- ==== Sys2Proof/Machine/Flags.lean ====
section
/-! DEFINITION. Arithmetic. The hardware has no flags, condition codes or predicates (R16), so nothing here computes one;
what stands here is the whole of its arithmetic, the two exact operations of R103 and R104. -/

namespace Sys2Proof.Machine

/-- The absolute value of a cell, exact: `if v >= 0 then v else 0 - v` (R100, R104). -/
def absValue (v : Int) : Int := if 0 ≤ v then v else 0 - v

/-- WRITE's target index `base + D`, the exact sum, reduced modulo nothing (R109). -/
def targetIndex (base : Int) (d : BitVec 6) : Int := base + displacement d

end Sys2Proof.Machine
end

