-- ==== Sys2Proof/Syntax.lean ====
section
/-! DEFINITION. The instructions: one constructor per row of spec/opcode_table.json. Each field has the width R5 and R51
give it, so a term of this type is an instruction word seen through its fields. -/

namespace Sys2Proof

/-- The four instructions (R57). B is 28 bits, C is 32 bits; WRITE's low 32 bits are the 26-bit C' and the 6-bit D (R51). -/
inductive Instr where
  /-- LOAD B, C: store the immediate constant C into cell B (R90). -/
  | load (b : BitVec 28) (c : BitVec 32)
  /-- READ B, C: copy cell C into cell B (R95). -/
  | read (b : BitVec 28) (c : BitVec 32)
  /-- ABS B, C: store the absolute value of cell C into cell B (R100). -/
  | abs (b : BitVec 28) (c : BitVec 32)
  /-- WRITE B, C, D: copy the source cell to the cell whose index is the content of cell B plus D (R107). The raw field C
  is `64 * C' + D` (R55), so C' and D are the whole low field. -/
  | write (b : BitVec 28) (cp : BitVec 26) (d : BitVec 6)
deriving DecidableEq, Repr

end Sys2Proof
end

