-- ==== Sys2Proof/Machine/Abs.lean ====
section
/-! DEFINITION. ABS (43_abs.md). -/

namespace Sys2Proof.Machine

/-- `exec_ABS(B, C)` of R100. -/
def execAbs (b : BitVec 28) (c : BitVec 32) (s : State) : Host.Outcome State Fault Refusal :=
  complete s do
    checkIndex (indexB b)
    checkIndex (indexC c)
    let v ← memRead s.mem (indexC c)
    memWrite s.mem (indexB b) (absValue v)

end Sys2Proof.Machine
end

