-- ==== Sys2Proof/Machine/Load.lean ====
section
/-! DEFINITION. LOAD (41_load.md). -/

namespace Sys2Proof.Machine

/-- `exec_LOAD(B, C)` of R90. -/
def execLoad (b : BitVec 28) (c : BitVec 32) (s : State) : Host.Outcome State Fault Refusal :=
  complete s do
    checkIndex (indexB b)
    memWrite s.mem (indexB b) (loadImmediate s.straps.immSigned c)

end Sys2Proof.Machine
end

