-- ==== Sys2Proof/Machine/Read.lean ====
section
/-! DEFINITION. READ (42_read.md). -/

namespace Sys2Proof.Machine

/-- `exec_READ(B, C)` of R95. -/
def execRead (b : BitVec 28) (c : BitVec 32) (s : State) : Host.Outcome State Fault Refusal :=
  complete s do
    checkIndex (indexB b)
    checkIndex (indexC c)
    let v ← memRead s.mem (indexC c)
    memWrite s.mem (indexB b) v

end Sys2Proof.Machine
end

