-- ==== Sys2Proof/Machine/Write.lean ====
section
/-! DEFINITION. WRITE (44_write.md). -/

namespace Sys2Proof.Machine

/-- `exec_WRITE(B, C, C', D)` of R107: the pointer cell B, then the target, then the source are checked, all before the one
write. -/
def execWrite (b : BitVec 28) (cp : BitVec 26) (d : BitVec 6) (s : State) : Host.Outcome State Fault Refusal :=
  complete s do
    checkIndex (indexB b)
    let base ← memRead s.mem (indexB b)
    checkIndex (targetIndex base d)
    checkIndex (writeSource s.straps.writeSrcMode cp d)
    let v ← memRead s.mem (writeSource s.straps.writeSrcMode cp d)
    memWrite s.mem (targetIndex base d) v

end Sys2Proof.Machine
end

