-- ==== Sys2Proof/Machine/Dispatch.lean ====
section
/-! DEFINITION. Dispatch of a decoded instruction to its meaning (R83). It does not test `status`, which `step` does
(DEDUCED, log 18: unsafe if read as the engine outside Running). -/

namespace Sys2Proof.Machine

def exec (i : Instr) (s : State) : Host.Outcome State Fault Refusal :=
  match i with
  | .load b c => Sys2Proof.Machine.execLoad b c s
  | .read b c => Sys2Proof.Machine.execRead b c s
  | .abs b c => Sys2Proof.Machine.execAbs b c s
  | .write b cp d => Sys2Proof.Machine.execWrite b cp d s

end Sys2Proof.Machine
end

