-- ==== Sys2Proof/WellFormed.lean ====
section
/-! DEFINITION. Well-formedness. Field widths are carried by the types of `Instr`, and "within a legal opcode every value of
B and C is a legal encoding" (R59), so no field value is ill-formed: `Instr.wellFormed` holds of every instruction. Where
operands are integers of any size, as in an assembler line, the check that can fail is `fitsField`, the condition of R62. -/

namespace Sys2Proof

/-- Every field value of every instruction is a legal encoding (R59). -/
def Instr.wellFormed : Instr → Bool
  | .load _ _ => true
  | .read _ _ => true
  | .abs _ _ => true
  | .write _ _ _ => true

/-- The operand `v` fits a field of `n` bits without truncation: `0 <= v < 2^n` (R62). -/
def fitsField (n : Nat) (v : Int) : Bool := decide (0 ≤ v) && decide (v < 2 ^ n)

end Sys2Proof
end

