-- ==== Sys2Proof/Decode.lean ====
section
/-! DEFINITION. The byte order of the stream, the instruction decoder (R52 to R58), the encoder from the same tables, and
the decoder's answer for a numbered table word. -/

namespace Sys2Proof

/-- The little-endian word of eight stream bytes, `b0` at the lowest offset (R33). -/
def wordOfBytes (b0 b1 b2 b3 b4 b5 b6 b7 : Byte) : Word :=
  b7 ++ b6 ++ b5 ++ b4 ++ b3 ++ b2 ++ b1 ++ b0

/-- The eight stream bytes of a word, least significant first: byte `i` is `(w >> (8*i)) mod 256` (R74). -/
def bytesOfWord (w : Word) : List Byte :=
  [w.extractLsb' 0 8, w.extractLsb' 8 8, w.extractLsb' 16 8, w.extractLsb' 24 8,
   w.extractLsb' 32 8, w.extractLsb' 40 8, w.extractLsb' 48 8, w.extractLsb' 56 8]

/-- The first word of a byte sequence and the bytes after it; `none` where fewer than eight bytes are left. -/
def splitWord : List Byte → Option (Word × List Byte)
  | b0 :: b1 :: b2 :: b3 :: b4 :: b5 :: b6 :: b7 :: rest => some (wordOfBytes b0 b1 b2 b3 b4 b5 b6 b7, rest)
  | _ => none

/-- The decoder output `op` (R23): one of the four instructions, or the verdict `Illegal`. -/
inductive Op where
  | load
  | read
  | abs
  | write
  | illegal
deriving DecidableEq, Repr

/-- The opcode map of R57: 1 LOAD, 12 READ, 13 ABS, 15 WRITE, every other value Illegal. -/
def opOf (opcode : BitVec 4) : Op :=
  if opcode = 1#4 then .load
  else if opcode = 12#4 then .read
  else if opcode = 13#4 then .abs
  else if opcode = 15#4 then .write
  else .illegal

/-- The outputs of the instruction decoder (R23): combinational values of the current word. -/
structure DecoderOut where
  op : Op
  opcode : BitVec 4
  b : BitVec 28
  c : BitVec 32
  cp : BitVec 26
  d : BitVec 6
deriving DecidableEq, Repr

/-- The decoder: a total, pure function of the word (R56), with the slices of R52 to R55. -/
def decoder (w : Word) : DecoderOut where
  op := opOf (w.extractLsb' 60 4)
  opcode := w.extractLsb' 60 4
  b := w.extractLsb' 32 28
  c := w.extractLsb' 0 32
  cp := w.extractLsb' 6 26
  d := w.extractLsb' 0 6

/-- Why bytes give no instruction. -/
inductive DecodeReject where
  /-- The opcode is one of the twelve illegal values (R58). -/
  | unknownOpcode (opcode : BitVec 4)
  /-- Between one and seven bytes are left, here `n` (R82). -/
  | partialWord (n : Nat)
  /-- No byte is left (R81). -/
  | endOfStream
deriving DecidableEq, Repr

/-- The instruction of a word, or the rejection of an illegal opcode by name (R57, R58). -/
def decodeWord (w : Word) : Except DecodeReject Instr :=
  match (decoder w).op with
  | .load => .ok (.load (decoder w).b (decoder w).c)
  | .read => .ok (.read (decoder w).b (decoder w).c)
  | .abs => .ok (.abs (decoder w).b (decoder w).c)
  | .write => .ok (.write (decoder w).b (decoder w).cp (decoder w).d)
  | .illegal => .error (.unknownOpcode (decoder w).opcode)

/-- The first instruction of a byte sequence with the bytes after it, total on any bytes. -/
def decode (bytes : List Byte) : Except DecodeReject (Instr × List Byte) :=
  match splitWord bytes with
  | some (w, rest) =>
    match decodeWord w with
    | .ok i => .ok (i, rest)
    | .error r => .error r
  | none => if bytes = [] then .error .endOfStream else .error (.partialWord bytes.length)

/-- The opcode of each instruction (R57). -/
def opcodeOf : Instr → BitVec 4
  | .load _ _ => 1#4
  | .read _ _ => 12#4
  | .abs _ _ => 13#4
  | .write _ _ _ => 15#4

/-- The decoder output `op` that stands for each instruction. -/
def opOfInstr : Instr → Op
  | .load _ _ => .load
  | .read _ _ => .read
  | .abs _ _ => .abs
  | .write _ _ _ => .write

/-- The word of an instruction, from the formats BC and BCD of R51 and the opcodes of R57. -/
def encode : Instr → Word
  | .load b c => 1#4 ++ b ++ c
  | .read b c => 12#4 ++ b ++ c
  | .abs b c => 13#4 ++ b ++ c
  | .write b cp d => 15#4 ++ b ++ (cp ++ d)

/-- The word numbered `w` in the opcode table's bit order, only its low `nbits` bits kept and the bits above them zero. -/
def tableWord (nbits w : Nat) : Word := BitVec.ofNat 64 (w % 2 ^ nbits)

/-- The instruction the decoder reads from the table word, laid out in stream order. -/
def decodeTableWord (nbits w : Nat) : Option Instr :=
  match decode (bytesOfWord (tableWord nbits w)) with
  | .ok (i, _) => some i
  | .error _ => none

end Sys2Proof
end

