-- ==== Sys2Proof/Machine/Fetch.lean ====
section
/-! DEFINITION. Instruction fetch: the one reader of the instruction space (R30, R80 to R82). -/

namespace Sys2Proof.Machine

/-- What fetch delivers in a step (R23). -/
inductive Fetched where
  /-- A whole word. -/
  | word (w : Word)
  /-- The stream is exhausted. -/
  | endOfStream
  /-- A tail of `n` bytes that form no word. -/
  | partialWord (n : Nat)
deriving DecidableEq, Repr

/-- Fetch at the cursor, in the order of R85: the end where `pc = L`, a partial tail where `L - pc < 8`, else the
little-endian word at `pc`. The tail faults by decision D9 (DEDUCED, log 9: safe); a cursor beyond the stream, which no
run reaches, counts as a tail (DEDUCED, log 8: unsafe). -/
def fetch (s : State) : Fetched :=
  if s.pc = s.stream.length then .endOfStream
  else
    match splitWord (s.stream.drop s.pc) with
    | some (w, _) => .word w
    | none => .partialWord (s.stream.length - s.pc)

/-- The stream with the bytes `bytes` standing at offset `offset`, padded with zero bytes up to it where it was shorter. -/
def placeBytes (stream : List Byte) (offset : Nat) (bytes : List Byte) : List Byte :=
  stream.take offset ++ List.replicate (offset - stream.length) 0#8 ++ bytes ++ stream.drop (offset + bytes.length)

end Sys2Proof.Machine
end

