-- ==== Sys2Proof/Machine/Step.lean ====
section
/-! DEFINITION. The step (R85) and the placing of a word where the next step fetches it. -/

namespace Sys2Proof.Machine

/-- One step of R85: halt at the end, `raise TruncatedStream` at a partial tail, else decode the word and execute it or
`raise UnknownOpcode`. Where `status` is not Running there is no step (R86), and the reason says so by name
(DEDUCED, log 6: safe). A fault of the engine is a next state (DEDUCED, log 7: unsafe for a block that D7 does not
describe). -/
def step (s : State) : Host.Outcome State Fault Refusal :=
  match s.status with
  | .halted => .fault .alreadyHalted
  | .failed => .fault .alreadyFailed
  | .running =>
    match fetch s with
    | .endOfStream => .next (halt s)
    | .partialWord _ => .next (raiseFault s .truncatedStream)
    | .word w =>
      match decodeWord w with
      | .ok i => exec i s
      | .error _ => .next (raiseFault s .unknownOpcode)

/-- `s` with the table word standing in the stream at the cursor and `status` Running, so that the next step fetches it:
it stands for the loading of a program from outside (DESIGN CHOICE, log 13: unsafe from a state that was not Running). -/
def State.withFetchWord (s : State) (nbits w : Nat) : State :=
  { s with stream := placeBytes s.stream s.pc (bytesOfWord (tableWord nbits w)), status := .running }

end Sys2Proof.Machine
end

