-- ==== Sys2Proof/Machine/HostPort.lean ====
section
/-! DEFINITION. What the host can do to the engine and see of it (R22, R141, R146 to R150). None of it is a step: the host
acts before a run and after it (DESIGN CHOICE, log 10: unsafe for a run read as one with a reset in its midst). -/

namespace Sys2Proof.Machine

/-- Why a launch is refused. -/
inductive LaunchRefusal where
  /-- The stream has `2 ^ PC_W` bytes or more, which R15 excludes (U15; DEDUCED, log 12). Safe: no run of such a stream is modelled. -/
  | streamTooLong
deriving DecidableEq, Repr

/-- The start of a run: reset with the stream and the straps in place (R140, R142). -/
def launch (straps : Config.Straps) (stream : List Byte) : Except LaunchRefusal State :=
  if stream.length < 2 ^ Config.pcWidth then .ok (State.resetWith straps stream) else .error .streamTooLong

/-- Reset applied in the state `s`, whatever its status: everything of the run in progress or finished is discarded, its
memory and its fault record too (R141). -/
def applyReset (_s : State) (straps : Config.Straps) (stream : List Byte) : Except LaunchRefusal State :=
  launch straps stream

/-- What the host sees of the engine (R146). -/
inductive HostView where
  /-- Nothing: the run is in progress (U13). -/
  | nothing
  /-- The run ended well. -/
  | halted
  /-- The run failed, with the fault record (R126). -/
  | failed (kind : Option EngineFault) (index : Nat)
deriving DecidableEq, Repr

/-- The host observes the engine only at the end of a run (R146). -/
def hostView (s : State) : HostView :=
  match s.status with
  | .running => .nothing
  | .halted => .halted
  | .failed => .failed s.faultKind s.faultIndex

/-- What the snapshot port answers to a request. -/
inductive SnapshotReply where
  /-- The pairs (index, value) of the range, ascending (R148). -/
  | data (cells : List (Nat × Int))
  /-- `SnapshotRangeError`: the range is illegal (R147). -/
  | rangeError
  /-- The port gives nothing: the run is in progress or failed (R148). -/
  | nothing
deriving DecidableEq, Repr

/-- A legal request: `0 <= start <= stop <= 1024` (R147). -/
abbrev LegalRange (start stop : Nat) : Prop := start ≤ stop ∧ stop ≤ 1024

/-- The snapshot of `[start, stop)`: only in Halted, the range examined at the request (R147, R148; DEDUCED, log 11:
safe). -/
def snapshot (s : State) (start stop : Nat) : SnapshotReply :=
  match s.status with
  | .running => .nothing
  | .failed => .nothing
  | .halted =>
    if LegalRange start stop then
      .data ((List.range' start (stop - start)).map (fun i => (i, s.mem.get i)))
    else .rangeError

/-- The decimal digits of an integer, with a minus sign where it is negative (R149). -/
def decimalText (v : Int) : List Char :=
  if 0 ≤ v then Nat.toDigits 10 v.toNat else '-' :: Nat.toDigits 10 (0 - v).toNat

/-- One record of the result: the key `memory[i]` with `i` in decimal, and the value's text (R149). -/
def resultRecord (cell : Nat × Int) : List Char × List Char :=
  (['m', 'e', 'm', 'o', 'r', 'y', '['] ++ Nat.toDigits 10 cell.1 ++ [']'], decimalText cell.2)

end Sys2Proof.Machine
end

