-- ==== Sys2Proof/Machine/Run.lean ====
section
/-! DEFINITION. The run (R87): steps from a state until there is none, and the left fold over words that R88 names. -/

namespace Sys2Proof.Machine

/-- The state after a step, or the state itself where there is no step, since then every piece of state keeps its value
(R86). -/
def stepOrStay (s : State) : State :=
  match step s with
  | .next t => t
  | .fault _ => s
  | .refused _ => s

/-- The state after at most `n` steps. -/
def runSteps : Nat → State → State
  | 0, s => s
  | n + 1, s => runSteps n (stepOrStay s)

/-- A bound on the steps of a run from the start of its stream: `floor(L / 8) + 1` (R87). -/
def stepBound (s : State) : Nat := s.stream.length / 8 + 1

/-- The whole run (R87). -/
def runToEnd (s : State) : State := runSteps (stepBound s) s

/-- The semantics of one word in the fold of R88; after a fault nothing more happens. -/
def foldWord (s : State) (w : Word) : State :=
  match s.status with
  | .running =>
    match decodeWord w with
    | .ok i =>
      match exec i s with
      | .next t => t
      | .fault _ => s
      | .refused _ => s
    | .error _ => raiseFault s .unknownOpcode
  | .halted => s
  | .failed => s

/-- The end of the fold: Halted where no byte is left over, TruncatedStream at a tail, nothing after a fault. -/
def foldEnd (tail : List Byte) (s : State) : State :=
  match s.status with
  | .running => if tail = [] then halt s else raiseFault s .truncatedStream
  | .halted => s
  | .failed => s

/-- The bytes of a sequence of words in stream order (R74). -/
def streamOf (words : List Word) : List Byte := words.flatMap bytesOfWord

/-- The run as a left fold over the words of the stream, then its end (R88). -/
def runFold (words : List Word) (tail : List Byte) (s : State) : State :=
  foldEnd tail (words.foldl foldWord s)

end Sys2Proof.Machine
end

