-- ==== Sys2Proof/Machine/Utf8.lean ====
section
/-! DEFINITION. UTF-8, the form of the encoder's source text (R66). The spec names it and does not describe it: its byte forms
are taken from the Unicode Standard (PRESUMED, log 16: unsafe, for the encoder only). -/

namespace Sys2Proof.Machine

/-- What a byte that begins a character says: how many bytes follow it, its own bits of the code point, and the least code
point that this length may carry (no character has a longer form than it needs). -/
def utf8Lead (x : Byte) : Option (Nat × Nat × Nat) :=
  if x.toNat < 0x80 then some (0, x.toNat, 0)
  else if x.toNat < 0xC0 then none
  else if x.toNat < 0xE0 then some (1, x.toNat - 0xC0, 0x80)
  else if x.toNat < 0xF0 then some (2, x.toNat - 0xE0, 0x800)
  else if x.toNat < 0xF8 then some (3, x.toNat - 0xF0, 0x10000)
  else none

/-- What the next byte makes of a character of which `want` bytes are still to come and `acc` is the part read: how many are
to come after it, the part then read, and the least code point. -/
def utf8Byte (want acc least : Nat) (x : Byte) : Option (Nat × Nat × Nat) :=
  if want = 0 then utf8Lead x
  else if 0x80 ≤ x.toNat ∧ x.toNat < 0xC0 then some (want - 1, acc * 64 + (x.toNat - 0x80), least)
  else none

/-- The character of a code point: none below the least of its length, none for a surrogate or beyond the last code point. -/
def utf8Char (least v : Nat) : Option Char :=
  if least ≤ v ∧ v.isValidChar then some (Char.ofNat v) else none

/-- The characters of the bytes that follow, in a character of which `want` bytes are still to come. -/
def utf8From (want acc least : Nat) : List Byte → Option (List Char)
  | [] => if want = 0 then some [] else none
  | x :: rest =>
    match utf8Byte want acc least x with
    | none => none
    | some (0, v, l) =>
      match utf8Char l v with
      | none => none
      | some ch => (utf8From 0 0 0 rest).map (fun cs => ch :: cs)
    | some (k + 1, v, l) => utf8From (k + 1) v l rest

/-- The characters of a source in UTF-8; `none` where its bytes are no UTF-8 (R66). -/
def decodeUtf8 (source : List Byte) : Option (List Char) := utf8From 0 0 0 source

/-- The byte of the value `v`. -/
def utf8Octet (v : Nat) : Byte := BitVec.ofNat 8 v

/-- The bytes of one character. -/
def encodeUtf8Char (ch : Char) : List Byte :=
  let v := ch.toNat
  if v < 0x80 then [utf8Octet v]
  else if v < 0x800 then [utf8Octet (0xC0 + v / 64), utf8Octet (0x80 + v % 64)]
  else if v < 0x10000 then
    [utf8Octet (0xE0 + v / 4096), utf8Octet (0x80 + v / 64 % 64), utf8Octet (0x80 + v % 64)]
  else
    [utf8Octet (0xF0 + v / 262144), utf8Octet (0x80 + v / 4096 % 64), utf8Octet (0x80 + v / 64 % 64),
      utf8Octet (0x80 + v % 64)]

/-- The bytes of a text in UTF-8. -/
def encodeUtf8 (text : List Char) : List Byte := text.flatMap encodeUtf8Char

end Sys2Proof.Machine
end

