-- ==== Sys2Proof/Machine/Assembler.lean ====
section
/-! DEFINITION. The encoder of R66 to R76: assembler text to words and log records. It is not part of the hardware block and
no step uses it; R3 has it in scope because it fixes the meaning of the fields. Its source is UTF-8 bytes (`assembleSource`);
`assemble` takes the characters they stand for. -/

namespace Sys2Proof.Machine

/-- The four mnemonics: the whole language (R68, R76). -/
inductive Mnemonic where
  | load
  | read
  | write
  | abs
deriving DecidableEq, Repr

/-- The mnemonic as written, upper case only (R68). -/
def mnemonicText : Mnemonic → List Char
  | .load => ['L', 'O', 'A', 'D']
  | .read => ['R', 'E', 'A', 'D']
  | .write => ['W', 'R', 'I', 'T', 'E']
  | .abs => ['A', 'B', 'S']

/-- The opcode of each mnemonic (R68). -/
def mnemonicOpcode : Mnemonic → Nat
  | .load => 1
  | .read => 12
  | .write => 15
  | .abs => 13

/-- One accepted line, its operands integers of any size as written; WRITE's D is `none` where it was left out (R66). -/
inductive AsmInstr where
  | load (b c : Int)
  | read (b c : Int)
  | abs (b c : Int)
  | write (b c : Int) (d : Option Int)
deriving DecidableEq, Repr

/-- The displacement packed for WRITE: 0 where the fourth token is absent (R71). -/
def writtenD (d : Option Int) : Int := d.getD 0

/-- The packing of R70: `op * 2^60 + (B mod 2^28) * 2^32 + low`, with `mod` the non-negative remainder (R72, R73;
DEDUCED, log 19: unsafe, for the encoder only). -/
def packFields (m : Mnemonic) (b : Int) (low : Int) : Word :=
  BitVec.ofNat 64 (mnemonicOpcode m * 2 ^ 60 + (b % 2 ^ 28).toNat * 2 ^ 32 + low.toNat)

/-- The word of an accepted line (R70, R71). -/
def packWord : AsmInstr → Word
  | .load b c => packFields .load b (c % 2 ^ 32)
  | .read b c => packFields .read b (c % 2 ^ 32)
  | .abs b c => packFields .abs b (c % 2 ^ 32)
  | .write b c d => packFields .write b ((c % 2 ^ 26) * 64 + writtenD d % 64)

/-- The instruction a line stands for, each operand truncated to its field (R72). -/
def asmInstrOf : AsmInstr → Instr
  | .load b c => .load (BitVec.ofInt 28 b) (BitVec.ofInt 32 c)
  | .read b c => .read (BitVec.ofInt 28 b) (BitVec.ofInt 32 c)
  | .abs b c => .abs (BitVec.ofInt 28 b) (BitVec.ofInt 32 c)
  | .write b c d => .write (BitVec.ofInt 28 b) (BitVec.ofInt 26 c) (BitVec.ofInt 6 (writtenD d))

/-- Every operand fits its field: the premise of the round trip (R62). -/
def asmFits : AsmInstr → Bool
  | .load b c => fitsField 28 b && fitsField 32 c
  | .read b c => fitsField 28 b && fitsField 32 c
  | .abs b c => fitsField 28 b && fitsField 32 c
  | .write b c d => fitsField 28 b && fitsField 26 c && fitsField 6 (writtenD d)

/-- The log record of an accepted line (R75): `A` the opcode, B and C as written, D present for WRITE only. -/
structure LogRecord where
  command : Mnemonic
  a : Nat
  b : Int
  c : Int
  d : Option Int
deriving DecidableEq, Repr

/-- One record per accepted line; WRITE always logs D (R75). -/
def logRecord : AsmInstr → LogRecord
  | .load b c => { command := .load, a := mnemonicOpcode .load, b := b, c := c, d := none }
  | .read b c => { command := .read, a := mnemonicOpcode .read, b := b, c := c, d := none }
  | .abs b c => { command := .abs, a := mnemonicOpcode .abs, b := b, c := c, d := none }
  | .write b c d => { command := .write, a := mnemonicOpcode .write, b := b, c := c, d := some (writtenD d) }

/-- The value of a field of a log record: the mnemonic's text, or a number. -/
inductive LogValue where
  | text (chars : List Char)
  | number (value : Int)
deriving DecidableEq, Repr

/-- The name of the log field that holds the mnemonic (R75). -/
def commandName : List Char := ['c', 'o', 'm', 'm', 'a', 'n', 'd']

/-- A log record's fields in order under the names R75 fixes: command, A, B, C, and D where it is present. A D that is absent
has no field. -/
def logFields (r : LogRecord) : List (List Char × LogValue) :=
  [(commandName, .text (mnemonicText r.command)), (['A'], .number (r.a : Int)), (['B'], .number r.b),
    (['C'], .number r.c)] ++
  match r.d with
  | some d => [(['D'], .number d)]
  | none => []

/-- White space inside a line (DESIGN CHOICE, log 14: unsafe, for the encoder only). -/
def isBlank (ch : Char) : Bool :=
  ch = ' ' || ch = '\t' || ch = '\r' || ch = '\x0b' || ch = '\x0c' || ch = '\n'

/-- The token read so far, where there is one. -/
def flushToken (cur : List Char) : List (List Char) := if cur = [] then [] else [cur]

/-- The tokens of a line, separated by runs of white space, after the token `cur` read so far (R66). -/
def tokensFrom (cur : List Char) : List Char → List (List Char)
  | [] => flushToken cur
  | ch :: rest =>
    if isBlank ch then flushToken cur ++ tokensFrom [] rest else tokensFrom (cur ++ [ch]) rest

/-- The tokens of a line (R66). -/
def tokens (line : List Char) : List (List Char) := tokensFrom [] line

/-- The lines of a text, one instruction each, after the characters `cur` of the line read so far (R66). -/
def linesFrom (cur : List Char) : List Char → List (List Char)
  | [] => [cur]
  | ch :: rest => if ch = '\n' then cur :: linesFrom [] rest else linesFrom (cur ++ [ch]) rest

/-- The lines of a text (R66). -/
def linesOf (text : List Char) : List (List Char) := linesFrom [] text

/-- The mnemonic of a first token, by exact comparison (R68). -/
def mnemonicOf (token : List Char) : Option Mnemonic :=
  if token = mnemonicText .load then some .load
  else if token = mnemonicText .read then some .read
  else if token = mnemonicText .write then some .write
  else if token = mnemonicText .abs then some .abs
  else none

/-- The value of a decimal digit. -/
def digitValue (ch : Char) : Option Nat :=
  if 48 ≤ ch.toNat ∧ ch.toNat ≤ 57 then some (ch.toNat - 48) else none

/-- The value of decimal digits that follow the value `acc`. -/
def digitsFrom (acc : Nat) : List Char → Option Nat
  | [] => some acc
  | ch :: rest =>
    match digitValue ch with
    | some v => digitsFrom (10 * acc + v) rest
    | none => none

/-- One or more decimal digits (R69). -/
def digits (token : List Char) : Option Nat := if token = [] then none else digitsFrom 0 token

/-- An operand token: an optional `-` or `+`, then one or more decimal digits (R69). -/
def operandOf : List Char → Option Int
  | '-' :: rest => (digits rest).map (fun v : Nat => -(v : Int))
  | '+' :: rest => (digits rest).map (fun v : Nat => (v : Int))
  | token => (digits token).map (fun v : Nat => (v : Int))

/-- The encoder's two errors; never raised by the hardware (R124). -/
inductive AsmErrorKind where
  /-- The first token is no mnemonic (R68). -/
  | unknownCommand
  /-- An operand token is no integer (R69), or there are surplus tokens (R76). -/
  | malformedLine
deriving DecidableEq, Repr

/-- The instruction of a mnemonic and the operand tokens after it (R66, R69, R76). -/
def operandsOf (m : Mnemonic) (ts : List (List Char)) : Except AsmErrorKind AsmInstr :=
  match m, ts.map operandOf with
  | .load, [some b, some c] => .ok (.load b c)
  | .read, [some b, some c] => .ok (.read b c)
  | .abs, [some b, some c] => .ok (.abs b c)
  | .write, [some b, some c] => .ok (.write b c none)
  | .write, [some b, some c, some d] => .ok (.write b c (some d))
  | _, _ => .error .malformedLine

/-- One line: skipped where it has fewer than three tokens, the token count tested before the mnemonic (R67;
DEDUCED, log 17: unsafe, for the encoder only). -/
def parseLine (line : List Char) : Except AsmErrorKind (Option AsmInstr) :=
  match tokens line with
  | t :: b :: c :: rest =>
    match mnemonicOf t with
    | none => .error .unknownCommand
    | some m =>
      match operandsOf m (b :: c :: rest) with
      | .ok a => .ok (some a)
      | .error e => .error e
  | _ => .ok none

/-- The instruction of a line that is accepted; `none` for a line that is skipped and for one in error (R66, R67). -/
def acceptedLine (line : List Char) : Option AsmInstr :=
  match parseLine line with
  | .ok a => a
  | .error _ => none

/-- An encoder error with the number of the offending line, counted from 0 (DESIGN CHOICE, log 15: safe for the
hardware). -/
structure AsmError where
  kind : AsmErrorKind
  line : Nat
deriving DecidableEq, Repr

/-- The accepted lines of a program, from line number `n` on; an error aborts the whole batch (R68, R76). -/
def parseLines (n : Nat) : List (List Char) → Except AsmError (List AsmInstr)
  | [] => .ok []
  | line :: rest =>
    match parseLine line with
    | .error e => .error { kind := e, line := n }
    | .ok none => parseLines (n + 1) rest
    | .ok (some a) =>
      match parseLines (n + 1) rest with
      | .ok as => .ok (a :: as)
      | .error e => .error e

/-- What the encoder makes of a program: the words in source order and the log. -/
structure Assembly where
  words : List Word
  log : List LogRecord
deriving DecidableEq, Repr

/-- The encoder: no stream is produced on an error (R76). -/
def assemble (text : List Char) : Except AsmError Assembly :=
  match parseLines 0 (linesOf text) with
  | .ok as => .ok { words := as.map packWord, log := as.map logRecord }
  | .error e => .error e

/-- Why a source gives no program. -/
inductive SourceError where
  /-- The bytes are no UTF-8, so the source is no text (R66; the spec names no error for it: DESIGN CHOICE, log 16). -/
  | notUtf8
  /-- An error of a line (R68, R69, R76). -/
  | line (e : AsmError)
deriving DecidableEq, Repr

/-- The encoder on a source as it is given to it: the bytes of a UTF-8 text (R66). -/
def assembleSource (source : List Byte) : Except SourceError Assembly :=
  match decodeUtf8 source with
  | none => .error .notUtf8
  | some text =>
    match assemble text with
    | .ok x => .ok x
    | .error e => .error (.line e)

/-- The output stream: each word's eight bytes, least significant first, in source order (R74). -/
def Assembly.stream (x : Assembly) : List Byte := streamOf x.words

end Sys2Proof.Machine
end

