-- ==== Sys2Proof/Machine/Ports.lean ====
section
/-! DEFINITION. The memory array's ports, its address decoder and its write enable, as R24 describes them: combinational
values of the state and of the word at the cursor, beside the meanings that compute the same effects. -/

namespace Sys2Proof.Machine

/-- What the execution unit drives on the array's ports in one step (R24). An address is `none` where the step does not use
the port, or where the address rests on a cell that does not exist (R110; DESIGN CHOICE, log 21: safe). -/
structure ArrayPorts where
  raddr0 : Option Int
  raddr1 : Option Int
  waddr : Option Int
  wdata : Option Int
  we : Bool
deriving DecidableEq, Repr

/-- No port is used: no cell is selected and `we` is false. -/
def idlePorts : ArrayPorts where
  raddr0 := none
  raddr1 := none
  waddr := none
  wdata := none
  we := false

/-- The address decoder: `InRange` of the whole address (R24). -/
def inRangeBit (a : Option Int) : Bool :=
  match a with
  | some a => decide (InRange a)
  | none => false

/-- The data of a read port: the selected cell, nothing where the address selects none (R24). -/
def readPort (m : Memory) (a : Option Int) : Option Int :=
  match a with
  | some a => if InRange a then some (m.get a.toNat) else none
  | none => none

/-- The ports of each instruction, by the table of R24. -/
def instrPorts (straps : Config.Straps) (m : Memory) : Instr → ArrayPorts
  | .load b c =>
    { raddr0 := none, raddr1 := none, waddr := some (indexB b)
      wdata := some (loadImmediate straps.immSigned c)
      we := inRangeBit (some (indexB b)) }
  | .read b c =>
    { raddr0 := some (indexC c), raddr1 := none, waddr := some (indexB b)
      wdata := readPort m (some (indexC c))
      we := inRangeBit (some (indexC c)) && inRangeBit (some (indexB b)) }
  | .abs b c =>
    { raddr0 := some (indexC c), raddr1 := none, waddr := some (indexB b)
      wdata := (readPort m (some (indexC c))).map absValue
      we := inRangeBit (some (indexC c)) && inRangeBit (some (indexB b)) }
  | .write b cp d =>
    let target := (readPort m (some (indexB b))).map (fun base => targetIndex base d)
    let src := writeSource straps.writeSrcMode cp d
    { raddr0 := some (indexB b), raddr1 := some src, waddr := target
      wdata := readPort m (some src)
      we := inRangeBit (some (indexB b)) && inRangeBit (some src) && inRangeBit target }

/-- The ports in a step: those of the instruction where `status` is Running, fetch delivers a word and the word is legal;
idle otherwise (R24). -/
def portsOf (s : State) : ArrayPorts :=
  match s.status with
  | .running =>
    match fetch s with
    | .word w =>
      match decodeWord w with
      | .ok i => instrPorts s.straps s.mem i
      | .error _ => idlePorts
    | .endOfStream => idlePorts
    | .partialWord _ => idlePorts
  | .halted => idlePorts
  | .failed => idlePorts

/-- The write port: one selected cell takes the data where `we`, else no cell changes (R24). -/
def writePort (m : Memory) (p : ArrayPorts) : Memory :=
  match p.we, p.waddr, p.wdata with
  | true, some a, some v => m.set a.toNat v
  | _, _, _ => m

end Sys2Proof.Machine
end

