-- ==== Sys2Proof/Safety.lean ====
section
/-! DEFINITION. The terms statements use: which cells an instruction names, when it completes, what holds in every state of
every run. -/

namespace Sys2Proof.Safety

open Sys2Proof.Machine

/-- The cell index an instruction writes, by the table of R37; `none` for a WRITE whose pointer cell does not exist. -/
def writeAddress (i : Instr) (s : State) : Option Int :=
  match i with
  | .load b _ => some (indexB b)
  | .read b _ => some (indexB b)
  | .abs b _ => some (indexB b)
  | .write b _ d => if InRange (indexB b) then some (targetIndex (s.mem.get b.toNat) d) else none

/-- The cell indices an instruction reads, by the table of R37. -/
def cellsRead (i : Instr) (straps : Config.Straps) : List Int :=
  match i with
  | .load _ _ => []
  | .read _ c => [indexC c]
  | .abs _ c => [indexC c]
  | .write b cp d => [indexB b, writeSource straps.writeSrcMode cp d]

/-- Every index the instruction computes is in range: the condition under which it does not raise (R122). -/
def Completes (i : Instr) (s : State) : Prop :=
  match i with
  | .load b _ => b.toNat ≤ 1023
  | .read b c => b.toNat ≤ 1023 ∧ c.toNat ≤ 1023
  | .abs b c => b.toNat ≤ 1023 ∧ c.toNat ≤ 1023
  | .write b cp d =>
    b.toNat ≤ 1023 ∧ InRange (targetIndex (s.mem.get b.toNat) d) ∧ InRange (writeSource s.straps.writeSrcMode cp d)

/-- The one array write of an instruction that completes: its cell and the value stored (R37, R91, R95, R100, R107). -/
def writeOf (i : Instr) (s : State) : Nat × Int :=
  match i with
  | .load b c => (b.toNat, loadImmediate s.straps.immSigned c)
  | .read b c => (b.toNat, s.mem.get c.toNat)
  | .abs b c => (b.toNat, absValue (s.mem.get c.toNat))
  | .write b cp d =>
    ((targetIndex (s.mem.get b.toNat) d).toNat, s.mem.get (writeSource s.straps.writeSrcMode cp d).toNat)

/-- Step number `n` of the run from `s` (the first is number 0) completed an instruction whose write address is `a`. -/
def WroteAt (s : State) (n : Nat) (a : Int) : Prop :=
  ∃ w i, (runSteps n s).status = .running ∧ fetch (runSteps n s) = .word w ∧ decodeWord w = .ok i ∧
    (runSteps (n + 1) s).status = .running ∧ writeAddress i (runSteps n s) = some a

/-- The range of cell values of R13: what a reachable cell can hold under each reading of LOAD's immediate. -/
def CellInRange (immSigned : Bool) (v : Int) : Prop :=
  if immSigned then -(2 ^ 31) ≤ v ∧ v ≤ 2 ^ 31 else 0 ≤ v ∧ v ≤ 2 ^ 32 - 1

/-- R13: every cell is in that range. -/
def CellsInRange (s : State) : Prop := ∀ a : Nat, CellInRange s.straps.immSigned (s.mem.get a)

/-- A two's-complement cell of `n` bits holds the value exactly (R12). -/
def FitsCell (n : Nat) (v : Int) : Prop := (BitVec.ofInt n v).toInt = v

/-- What the run state, the cursor and the fault record say of each other (R15, R18, R19, R81, R125). -/
def RecordConsistent (s : State) : Prop :=
  match s.status with
  | .running => s.faultKind = none ∧ s.faultIndex = 0
  | .halted => s.faultKind = none ∧ s.faultIndex = 0 ∧ s.pc = s.stream.length
  | .failed => s.faultKind ≠ none ∧ s.faultIndex = s.pc / 8

/-- What holds in every state of every run: the memory in canonical form, the cursor a multiple of 8 within the stream, the
fault record consistent, and the value range of R13. -/
structure EngineInv (s : State) : Prop where
  mem_wf : s.mem.wf = true
  pc_aligned : s.pc % 8 = 0
  pc_le : s.pc ≤ s.stream.length
  record : RecordConsistent s
  range : CellsInRange s

/-- The run from `s` ended well (R146). -/
def EndsWell (s : State) : Prop := (runToEnd s).status = .halted

end Sys2Proof.Safety
end

