-- ==== Sys2Proof/Certificates/Slice0/Obligations.lean ====
section
/-! DEFINITION. The statements about this machine, for the provers. Each docstring names the rule or section of spec/ it
formalises. A statement about `exec` or `step` holds of every state, reachable or not, unless its premises say otherwise. -/

open Sys2Proof Sys2Proof.Machine Sys2Proof.Safety

/-! ### Decoder and encoder -/

/-- Words of 95_test_vectors.md S1, S8 and V-DEC decode to the instructions they stand for, and an illegal one to none. -/
def Obligations.SampleWordsDecode : Prop :=
  decodeWord 0x1000000000000005#64 = .ok (.load 0#28 5#32) ∧
  decodeWord 0x100003FF7FFFFFFF#64 = .ok (.load 1023#28 2147483647#32) ∧
  decodeWord 0xC000000200000000#64 = .ok (.read 2#28 0#32) ∧
  decodeWord 0xD0000000FFFFFFFF#64 = .ok (.abs 0#28 4294967295#32) ∧
  decodeWord 0xF000000300000042#64 = .ok (.write 3#28 1#26 2#6) ∧
  decodeWord 0xFFFFFFFFFFFFFFFF#64 = .ok (.write 268435455#28 67108863#26 63#6) ∧
  decodeWord 0xB000000100000002#64 = .error (.unknownOpcode 11#4)

/-- R52, R53, R54: the opcode, B and C as slices of the word and as stream bytes, and when B is out of range. -/
def Obligations.FieldsInStreamBytes : Prop :=
  ∀ b0 b1 b2 b3 b4 b5 b6 b7 : Byte,
    let w := wordOfBytes b0 b1 b2 b3 b4 b5 b6 b7
    let out := decoder w
    out.opcode = w.extractLsb' 60 4 ∧ out.opcode.toNat ≤ 15 ∧ out.opcode.toNat = b7.toNat / 16 ∧
    out.b = w.extractLsb' 32 28 ∧ out.b.toNat ≤ 268435455 ∧
    out.b.toNat = b4.toNat + b5.toNat * 2 ^ 8 + b6.toNat * 2 ^ 16 + (b7.toNat % 16) * 2 ^ 24 ∧
    0 ≤ indexB out.b ∧
    (¬ InRange (indexB out.b) ↔ 1024 ≤ out.b.toNat) ∧ (1024 ≤ out.b.toNat ↔ w.extractLsb' 42 18 ≠ 0#18) ∧
    out.c = w.extractLsb' 0 32 ∧ out.c.toNat < 2 ^ 32 ∧
    out.c.toNat = b0.toNat + b1.toNat * 2 ^ 8 + b2.toNat * 2 ^ 16 + b3.toNat * 2 ^ 24

/-- R55: the two further outputs for WRITE, and that the other three instructions do not use them. -/
def Obligations.WriteFieldSplit : Prop :=
  ∀ w : Word,
    let out := decoder w
    out.d = w.extractLsb' 0 6 ∧ out.d.toNat = out.c.toNat % 64 ∧ out.d.toNat ≤ 63 ∧
    out.cp = w.extractLsb' 6 26 ∧ out.cp.toNat = out.c.toNat / 64 ∧ out.cp.toNat < 2 ^ 26 ∧
    out.c.toNat = 64 * out.cp.toNat + out.d.toNat ∧
    (out.op = .load → decodeWord w = .ok (.load out.b out.c)) ∧
    (out.op = .read → decodeWord w = .ok (.read out.b out.c)) ∧
    (out.op = .abs → decodeWord w = .ok (.abs out.b out.c)) ∧
    (out.op = .write → decodeWord w = .ok (.write out.b out.cp out.d))

/-- 30_encoding.md section 3: the opcode alone selects the instruction, as values and as match and mask on the word. -/
def Obligations.OpcodeAloneSelects : Prop :=
  ∀ w : Word,
    let op := (decoder w).op
    let masked := w &&& 0xF000000000000000#64
    (op = .load ↔ (decoder w).opcode.toNat = 1) ∧ (op = .load ↔ masked = 0x1000000000000000#64) ∧
    (op = .read ↔ (decoder w).opcode.toNat = 12) ∧ (op = .read ↔ masked = 0xC000000000000000#64) ∧
    (op = .abs ↔ (decoder w).opcode.toNat = 13) ∧ (op = .abs ↔ masked = 0xD000000000000000#64) ∧
    (op = .write ↔ (decoder w).opcode.toNat = 15) ∧ (op = .write ↔ masked = 0xF000000000000000#64) ∧
    (op = .illegal ↔ (decoder w).opcode.toNat ∉ [1, 12, 13, 15])

/-- R58: a word with one of the twelve illegal opcodes raises UnknownOpcode whatever its other bits; the all-zero word is
illegal; the all-ones word is a legal WRITE, which raises AddressOutOfRange. -/
def Obligations.IllegalOpcodeFaults : Prop :=
  (∀ (s : State) (w : Word), s.status = .running → fetch s = .word w →
    (decoder w).opcode.toNat ∈ [0, 2, 3, 4, 5, 6, 7, 8, 9, 10, 11, 14] →
    step s = .next { s with status := .failed, faultKind := some .unknownOpcode, faultIndex := s.pc / 8 }) ∧
  (decoder 0#64).op = .illegal ∧
  (decoder 0xFFFFFFFFFFFFFFFF#64).op = .write ∧
  (∀ s : State, s.status = .running → fetch s = .word 0xFFFFFFFFFFFFFFFF#64 →
    step s = .next { s with status := .failed, faultKind := some .addressOutOfRange, faultIndex := s.pc / 8 })

/-- Decoding the encoding of any well-formed instruction gives it back, as a word and as bytes at the head of a stream. -/
def Obligations.DecodeEncodeAgree : Prop :=
  ∀ i : Instr, i.wellFormed = true →
    decodeWord (encode i) = .ok i ∧
    ∀ rest : List Byte, decode (bytesOfWord (encode i) ++ rest) = .ok (i, rest)

/-- Each legal word is the encoding of the one instruction it decodes to: no bit of it is ignored (R56). -/
def Obligations.EncodeDecodeAgree : Prop :=
  ∀ (w : Word) (i : Instr), decodeWord w = .ok i → encode i = w

/-! ### Fetch and the step -/

/-- 20_memory.md section 2 (the formula is marked there as general knowledge): the word fetched at the cursor is the little-endian sum of eight stream bytes; its opcode is the high nibble of the
last of them and, for WRITE, D the low six bits of the first. -/
def Obligations.FetchIsLittleEndian : Prop :=
  ∀ s : State, s.pc + 8 ≤ s.stream.length →
    let byte := fun k => (s.stream.getD (s.pc + k) 0#8).toNat
    ∃ w : Word, fetch s = .word w ∧
      w.toNat = byte 0 + byte 1 * 2 ^ 8 + byte 2 * 2 ^ 16 + byte 3 * 2 ^ 24 + byte 4 * 2 ^ 32 +
        byte 5 * 2 ^ 40 + byte 6 * 2 ^ 48 + byte 7 * 2 ^ 56 ∧
      (decoder w).opcode.toNat = byte 7 / 16 ∧
      (∀ b cp d, decodeWord w = .ok (.write b cp d) → d.toNat = byte 0 % 64)

/-- R45: no store is seen by fetch, and no step changes the stream. -/
def Obligations.StoresUnseenByFetch : Prop :=
  (∀ (s : State) (m : Memory), fetch { s with mem := m } = fetch s) ∧
  (∀ s t : State, step s = .next t → t.stream = s.stream)

/-- Where the bytes at the cursor decode to a well-formed instruction, the step is that instruction's execution (R83): this
machine's step adds nothing around it. -/
def Obligations.StepRunsDecodedInstruction : Prop :=
  ∀ (s : State) (i : Instr) (rest : List Byte), s.status = .running →
    decode (s.stream.drop s.pc) = .ok (i, rest) → i.wellFormed = true → step s = exec i s

/-- R81: on an exhausted stream the step halts and changes nothing else; it is the only way a run ends well; on the empty
stream it is the first and only step. -/
def Obligations.HaltAtStreamEnd : Prop :=
  (∀ s : State, s.status = .running → s.pc = s.stream.length →
    fetch s = .endOfStream ∧ step s = .next { s with status := .halted }) ∧
  (∀ s t : State, step s = .next t → t.status = .halted → s.pc = s.stream.length) ∧
  (∀ straps : Config.Straps,
    let s := State.resetWith straps []
    step s = .next { s with status := .halted } ∧ ∀ t, step { s with status := .halted } ≠ .next t)

/-- 40_step_and_dispatch.md section 1 (the spec's own decision D9): at a tail of one to seven bytes the step raises TruncatedStream; in a run this happens exactly where L is no
multiple of 8 and every whole word before the tail executed without a fault. -/
def Obligations.TruncatedTailFaults : Prop :=
  (∀ s : State, s.status = .running → s.pc < s.stream.length → s.stream.length < s.pc + 8 →
    fetch s = .partialWord (s.stream.length - s.pc) ∧
    step s = .next { s with status := .failed, faultKind := some .truncatedStream, faultIndex := s.pc / 8 }) ∧
  (∀ straps stream s, launch straps stream = .ok s →
    ((runToEnd s).faultKind = some .truncatedStream ↔
      stream.length % 8 ≠ 0 ∧ (runSteps (stream.length / 8) s).status = .running) ∧
    ((runToEnd s).faultKind = some .truncatedStream →
      (runToEnd s).mem = (runSteps (stream.length / 8) s).mem))

/-- R84: a step that goes on moves the cursor by 8; a step that ends the run leaves it. Every step in Running answers. -/
def Obligations.CursorAdvancesByEight : Prop :=
  ∀ s : State, s.status = .running → ∃ t, step s = .next t ∧
    (t.status = .running → t.pc = s.pc + 8) ∧ (t.status ≠ .running → t.pc = s.pc)

/-- R86: in Halted and in Failed there is no step and every piece of state keeps its value; Failed is never a successful
end. -/
def Obligations.TerminalStatesTakeNoStep : Prop :=
  ∀ s : State,
    (s.status ≠ .running → (∀ t, step s ≠ .next t) ∧ ∀ n, runSteps n s = s) ∧
    (s.status = .failed → ¬ EndsWell s)

/-- 10_state.md section 6 (representation by the spec's own decision D12): reset leaves Running; only Running is left by a step; the codes, of which 3 never occurs. -/
def Obligations.StatusTransitions : Prop :=
  (∀ straps stream, (State.resetWith straps stream).status = .running) ∧
  (∀ s t : State, step s = .next t → s.status = .running) ∧
  (∀ s : State, s.status ≠ .running → (∀ t, step s ≠ .next t) ∧ stepOrStay s = s) ∧
  statusCode .running = 0#2 ∧ statusCode .halted = 1#2 ∧ statusCode .failed = 2#2 ∧ ∀ x, statusCode x ≠ 3#2

/-- The placing of a table word by `State.withFetchWord` (log 13): the very next step runs the instruction the decoder reads
from that word, whatever the state was, and nothing but the stream and the status differs. -/
def Obligations.PlacedWordRunsNext : Prop :=
  ∀ (s : State) (nbits w : Nat),
    (∀ i, decodeTableWord nbits w = some i →
      step (s.withFetchWord nbits w) = exec i (s.withFetchWord nbits w)) ∧
    fetch (s.withFetchWord nbits w) = .word (BitVec.ofNat 64 (w % 2 ^ nbits)) ∧
    s.withFetchWord nbits w = { s with stream := (s.withFetchWord nbits w).stream, status := .running }

/-! ### Faults -/

/-- 60_exceptions.md section 2 (the spec's own decision D7): a step that fails writes the status and the fault record and nothing else. -/
def Obligations.FaultEntryChangesRecordOnly : Prop :=
  ∀ s t : State, step s = .next t → t.status = .failed →
    ∃ k : EngineFault, t = { s with status := .failed, faultKind := some k, faultIndex := s.pc / 8 }

/-- 60_exceptions.md section 3: the kind of a step's fault is fixed by what fetch delivers and by the decoder's verdict. -/
def Obligations.FaultKindsExclude : Prop :=
  ∀ s t : State, step s = .next t → t.status = .failed →
    ((∃ n, fetch s = .partialWord n) → t.faultKind = some .truncatedStream) ∧
    (∀ w, fetch s = .word w → (decoder w).op = .illegal → t.faultKind = some .unknownOpcode) ∧
    (∀ w, fetch s = .word w → (decoder w).op ≠ .illegal → t.faultKind = some .addressOutOfRange)

/-- 10_state.md section 6 and 60_exceptions.md section 1 (codes by the spec's own decision D8): in every run the fault record is None and 0 until a fault, then the kind and `pc / 8`. -/
def Obligations.FaultRecordOfRun : Prop :=
  (∀ straps stream s n, launch straps stream = .ok s →
    let t := runSteps n s
    (t.status ≠ .failed → t.faultKind = none ∧ t.faultIndex = 0) ∧
    (t.status = .failed → t.faultKind ≠ none ∧ t.faultIndex = t.pc / 8 ∧ ∀ m, runSteps m t = t)) ∧
  faultCode none = 0#2 ∧ faultCode (some .unknownOpcode) = 1#2 ∧
  faultCode (some .addressOutOfRange) = 2#2 ∧ faultCode (some .truncatedStream) = 3#2

/-- 41_load.md (the spec's own decision D5): LOAD raises AddressOutOfRange exactly when B is 1024 or more, whatever C is, and then writes nothing. -/
def Obligations.LoadFaultsExactly : Prop :=
  ∀ (b : BitVec 28) (c : BitVec 32) (s : State), s.status = .running →
    (1024 ≤ b.toNat → exec (.load b c) s =
      .next { s with status := .failed, faultKind := some .addressOutOfRange, faultIndex := s.pc / 8 }) ∧
    (b.toNat < 1024 → ∃ t, exec (.load b c) s = .next t ∧ t.status = .running) ∧
    0 ≤ indexB b

/-- R96: READ raises AddressOutOfRange exactly when B or C is 1024 or more, and then writes nothing. -/
def Obligations.ReadFaultsExactly : Prop :=
  ∀ (b : BitVec 28) (c : BitVec 32) (s : State), s.status = .running →
    (1024 ≤ b.toNat ∨ 1024 ≤ c.toNat → exec (.read b c) s =
      .next { s with status := .failed, faultKind := some .addressOutOfRange, faultIndex := s.pc / 8 }) ∧
    (b.toNat < 1024 ∧ c.toNat < 1024 → ∃ t, exec (.read b c) s = .next t ∧ t.status = .running) ∧
    (c.toInt < 0 → 1024 ≤ c.toNat)

/-- 43_abs.md (the spec's own decision D5): ABS raises AddressOutOfRange exactly when B or C is 1024 or more, and then writes nothing. -/
def Obligations.AbsFaultsExactly : Prop :=
  ∀ (b : BitVec 28) (c : BitVec 32) (s : State), s.status = .running →
    (1024 ≤ b.toNat ∨ 1024 ≤ c.toNat → exec (.abs b c) s =
      .next { s with status := .failed, faultKind := some .addressOutOfRange, faultIndex := s.pc / 8 }) ∧
    (b.toNat < 1024 ∧ c.toNat < 1024 → ∃ t, exec (.abs b c) s = .next t ∧ t.status = .running)

/-- 44_write.md (order of the checks by the spec's own decision D17, not stated here): WRITE raises AddressOutOfRange exactly under one of its four conditions, and then writes nothing. -/
def Obligations.WriteFaultsExactly : Prop :=
  ∀ (b : BitVec 28) (cp : BitVec 26) (d : BitVec 6) (s : State), s.status = .running →
    let sum := s.mem.get b.toNat + (d.toNat : Int)
    let src := match s.straps.writeSrcMode with
      | .raw => 64 * cp.toNat + d.toNat
      | .shifted => cp.toNat
    let raises := 1024 ≤ b.toNat ∨ (b.toNat ≤ 1023 ∧ sum < 0) ∨ (b.toNat ≤ 1023 ∧ 1023 < sum) ∨ 1024 ≤ src
    (raises → exec (.write b cp d) s =
      .next { s with status := .failed, faultKind := some .addressOutOfRange, faultIndex := s.pc / 8 }) ∧
    (¬ raises → ∃ t, exec (.write b cp d) s = .next t ∧ t.status = .running)

/-! ### What the instructions do -/

/-- 41_load.md (the readings and the default by the spec's own decision D3): the value LOAD stores under each reading of C; LOAD completes for every B that names a cell, and changes nothing but
that cell and the cursor. -/
def Obligations.LoadStoresImmediate : Prop :=
  State.reset.straps.immSigned = true ∧
  ∀ (b : BitVec 28) (c : BitVec 32) (s : State), b.toNat ≤ 1023 →
    ∃ t, exec (.load b c) s = .next t ∧
      t.mem.get b.toNat =
        (if s.straps.immSigned then (if c.toNat < 2 ^ 31 then (c.toNat : Int) else (c.toNat : Int) - 2 ^ 32)
         else (c.toNat : Int)) ∧
      (s.straps.immSigned = true → -(2 ^ 31) ≤ t.mem.get b.toNat ∧ t.mem.get b.toNat ≤ 2 ^ 31 - 1) ∧
      (s.straps.immSigned = false → 0 ≤ t.mem.get b.toNat ∧ t.mem.get b.toNat ≤ 2 ^ 32 - 1) ∧
      (∀ a : Nat, a ≠ b.toNat → t.mem.get a = s.mem.get a) ∧
      t = { s with mem := t.mem, pc := s.pc + 8 }

/-- 42_read.md: READ copies cell C into cell B, whole and unchanged, for every B and C that name cells. -/
def Obligations.ReadCopiesCell : Prop :=
  ∀ (b : BitVec 28) (c : BitVec 32) (s : State), b.toNat ≤ 1023 → c.toNat ≤ 1023 →
    ∃ t, exec (.read b c) s = .next t ∧
      t.mem.get b.toNat = s.mem.get c.toNat ∧
      (∀ a : Nat, a ≠ b.toNat → t.mem.get a = s.mem.get a) ∧
      t = { s with mem := t.mem, pc := s.pc + 8 }

/-- 43_abs.md: ABS stores the mathematical absolute value of cell C in cell B, for every B and C that name cells, with no
bound on the cell's value. -/
def Obligations.AbsStoresAbsoluteValue : Prop :=
  ∀ (b : BitVec 28) (c : BitVec 32) (s : State), b.toNat ≤ 1023 → c.toNat ≤ 1023 →
    ∃ t, exec (.abs b c) s = .next t ∧
      t.mem.get b.toNat = ((s.mem.get c.toNat).natAbs : Int) ∧
      (∀ a : Nat, a ≠ b.toNat → t.mem.get a = s.mem.get a) ∧
      t = { s with mem := t.mem, pc := s.pc + 8 }

/-- 44_write.md (both modes and the default by the spec's own decision D4, the exact sum by D6): WRITE in each mode of its source index, through the exact sum of the pointer cell and D. -/
def Obligations.WriteStoresThroughPointer : Prop :=
  State.reset.straps.writeSrcMode = .raw ∧
  ∀ (b : BitVec 28) (cp : BitVec 26) (d : BitVec 6) (s : State),
    let target := s.mem.get b.toNat + (d.toNat : Int)
    let src := match s.straps.writeSrcMode with
      | .raw => 64 * cp.toNat + d.toNat
      | .shifted => cp.toNat
    b.toNat ≤ 1023 → 0 ≤ target → target ≤ 1023 → src ≤ 1023 →
    ∃ t, exec (.write b cp d) s = .next t ∧
      t.mem.get target.toNat = s.mem.get src ∧
      (∀ a : Nat, (a : Int) ≠ target → t.mem.get a = s.mem.get a) ∧
      t = { s with mem := t.mem, pc := s.pc + 8 }

/-- The frame of all four instructions: stream and straps never change; every cell but the one at the computed write address
reads as before; where the status did not change to Failed the fault record is as before. -/
def Obligations.ExecFrame : Prop :=
  ∀ (i : Instr) (s t : State), exec i s = .next t →
    t.stream = s.stream ∧ t.straps = s.straps ∧
    (∀ a : Nat, writeAddress i s ≠ some (a : Int) → t.mem.get a = s.mem.get a) ∧
    ((t.status = s.status ∧ t.faultKind = s.faultKind ∧ t.faultIndex = s.faultIndex ∧ t.pc = s.pc + 8) ∨
     (t.status = .failed ∧ t.pc = s.pc ∧ t.mem = s.mem))

/-- 44_write.md, a consequence the spec derives: what the assembler's operands C and D select as the source cell in each mode. -/
def Obligations.AssembledWriteSource : Prop :=
  ∀ c d : Nat, c < 2 ^ 26 → d < 64 →
    (∀ b, asmInstrOf (.write b c (some (d : Int))) =
      .write (BitVec.ofInt 28 b) (BitVec.ofNat 26 c) (BitVec.ofNat 6 d)) ∧
    writeSource .shifted (BitVec.ofNat 26 c) (BitVec.ofNat 6 d) = c ∧
    (InRange (writeSource .shifted (BitVec.ofNat 26 c) (BitVec.ofNat 6 d)) ↔ c ≤ 1023) ∧
    writeSource .raw (BitVec.ofNat 26 c) (BitVec.ofNat 6 d) = 64 * c + d ∧
    (InRange (writeSource .raw (BitVec.ofNat 26 c) (BitVec.ofNat 6 d)) ↔ c ≤ 15) ∧
    (∀ cell : Nat, writeSource .raw (BitVec.ofNat 26 c) (BitVec.ofNat 6 d) = cell ↔ c = cell / 64 ∧ d = cell % 64)

/-- READ of a cell into itself changes nothing but the cursor, memory as data included, where memory is canonical: the
nearest thing to a no-op (30_encoding.md R59, 42_read.md R97). -/
def Obligations.ReadIntoItselfIsNoop : Prop :=
  ∀ (b : BitVec 28) (s : State), s.mem.wf = true → b.toNat ≤ 1023 →
    exec (.read b (b.setWidth 32)) s = .next { s with pc := s.pc + 8 }

/-- With the unsigned reading no cell is negative and ABS behaves as READ (43_abs.md R102 i). -/
def Obligations.AbsIsReadWhenUnsigned : Prop :=
  ∀ (b : BitVec 28) (c : BitVec 32) (s : State), s.straps.immSigned = false → CellsInRange s →
    exec (.abs b c) s = exec (.read b c) s

/-- No step changes a strap; READ and ABS depend on no strap, LOAD only on IMM_SIGNED, WRITE only on WRITE_SRC_MODE
(10_state.md section 6, 30_encoding.md section 4). -/
def Obligations.StrapsMatterWhereStated : Prop :=
  (∀ s t : State, step s = .next t → t.straps = s.straps) ∧
  (∀ (s t : State) (straps : Config.Straps) (i : Instr), exec i s = .next t →
    (match i with
      | .load _ _ => straps.immSigned = s.straps.immSigned
      | .read _ _ => True
      | .abs _ _ => True
      | .write _ _ _ => straps.writeSrcMode = s.straps.writeSrcMode) →
    exec i { s with straps := straps } = .next { t with straps := straps })

/-- An instruction's outcome depends on no cell but those the table of R37 has it read: with another memory that agrees on
those, it completes or raises alike and stores the same value in the same cell. -/
def Obligations.UnreadCellsDoNotMatter : Prop :=
  ∀ (i : Instr) (s : State) (m : Memory),
    (∀ a ∈ cellsRead i s.straps, InRange a → m.get a.toNat = s.mem.get a.toNat) →
    ∃ t t', exec i s = .next t ∧ exec i { s with mem := m } = .next t' ∧
      t'.status = t.status ∧ t'.pc = t.pc ∧ t'.faultKind = t.faultKind ∧ t'.faultIndex = t.faultIndex ∧
      (t.pc = s.pc + 8 → ∃ a : Nat, writeAddress i s = some (a : Int) ∧
        writeAddress i { s with mem := m } = some (a : Int) ∧ t'.mem.get a = t.mem.get a)

/-! ### The memory array -/

/-- 20_memory.md section 4 (the check for every instruction by the spec's own decision D5): a read or write outside 0..1023 is refused on the whole integer; a write changes the one cell, and
a read gives what was last written. -/
def Obligations.ArrayReadAfterWrite : Prop :=
  ∀ (m : Memory) (a : Int) (v : Int),
    (a < 0 ∨ 1023 < a → memRead m a = .error .addressOutOfRange ∧ memWrite m a v = .error .addressOutOfRange) ∧
    (0 ≤ a → a ≤ 1023 → ∃ m', memWrite m a v = .ok m' ∧ memRead m' a = .ok v ∧
      ∀ x : Int, x ≠ a → memRead m' x = memRead m x)

/-- Two memories in canonical form that read alike are the same data (the model's representation, log 1). -/
def Obligations.CanonicalMemoriesEqual : Prop :=
  ∀ m m' : Memory, m.wf = true → m'.wf = true → (∀ a : Nat, a ≤ 1023 → m.get a = m'.get a) → m = m'

/-- 10_state.md section 8 (ports by the spec's own decision D1): the write enable is true exactly when the step runs a legal word whose every index is in range, and the
array after the step is the array with the write port's effect. -/
def Obligations.WriteEnableGovernsArray : Prop :=
  ∀ s : State,
    ((portsOf s).we = true ↔
      s.status = .running ∧ ∃ w i, fetch s = .word w ∧ decodeWord w = .ok i ∧ Completes i s) ∧
    (∀ t, step s = .next t → t.mem = writePort s.mem (portsOf s)) ∧
    (∀ t, step s = .next t → (portsOf s).we = false → t.mem = s.mem) ∧
    ((portsOf s).we = true → ∃ (a : Nat) (v : Int), a ≤ 1023 ∧ (portsOf s).waddr = some (a : Int) ∧
      (portsOf s).wdata = some v ∧ ∃ t, step s = .next t ∧ t.mem.get a = v ∧
      ∀ x : Nat, x ≠ a → t.mem.get x = s.mem.get x)

/-! ### Invariants and whole runs -/

/-- Every step keeps the engine's invariant: canonical memory (log 1), cursor aligned and within the stream, consistent fault
record, cell values within the bounds 10_state.md section 2 infers. -/
def Obligations.EngineInvariantKept : Prop :=
  ∀ s t : State, EngineInv s → step s = .next t → EngineInv t

/-- The invariant holds after reset, and at the start of every run. -/
def Obligations.EngineInvariantAtReset : Prop :=
  EngineInv State.reset ∧ ∀ straps stream s, launch straps stream = .ok s → EngineInv s

/-- 10_state.md section 2, an inference of the spec's own: the range of every cell in every run under each reading, and its consequences for every cell width of 33 bits or
more. -/
def Obligations.CellValueRange : Prop :=
  ∀ straps stream s n, launch straps stream = .ok s → ∀ a : Nat,
    let v := (runSteps n s).mem.get a
    (straps.immSigned = true → -(2 ^ 31) ≤ v ∧ v ≤ 2 ^ 31) ∧
    (straps.immSigned = false → 0 ≤ v ∧ v ≤ 2 ^ 32 - 1) ∧
    (∀ width, 33 ≤ width → FitsCell width v ∧ FitsCell width (absValue v) ∧ v ≠ -(2 ^ (width - 1))) ∧
    (∀ d : BitVec 6, -(2 ^ 31) ≤ targetIndex v d ∧ targetIndex v d ≤ 2 ^ 32 + 62 ∧
      targetIndex v d = v + (d.toNat : Int))

/-- 10_state.md section 3 (width by the spec's own decision D10): in every run the cursor is a multiple of 8 within the stream, never past the last whole word's end, and below
`2 ^ 64`; a longer stream is not launched. -/
def Obligations.CursorWithinStream : Prop :=
  (∀ straps stream s n, launch straps stream = .ok s →
    let t := runSteps n s
    t.pc % 8 = 0 ∧ t.pc ≤ stream.length ∧ t.pc ≤ stream.length / 8 * 8 ∧ stream.length < 2 ^ 64) ∧
  (∀ straps stream, 2 ^ 64 ≤ stream.length → launch straps stream = .error .streamTooLong)

/-- 40_step_and_dispatch.md section 2, an inference of the spec's own: every run ends within `L / 8 + 1` steps, with exactly one of the three outcomes; a failed run failed at the first
word that raised, every word before it having completed. -/
def Obligations.RunTerminatesWithOutcome : Prop :=
  ∀ straps stream s, launch straps stream = .ok s →
    let t := runToEnd s
    let words := stream.length / 8
    t.status ≠ .running ∧
    (∀ n, stepBound s ≤ n → runSteps n s = t) ∧
    ((t.status = .halted ∧ stream.length % 8 = 0 ∧ t.pc = stream.length ∧ t.faultKind = none ∧
        ∀ n, n ≤ words → (runSteps n s).status = .running ∧ (runSteps n s).pc = 8 * n) ∨
     (t.status = .failed ∧ (t.faultKind = some .unknownOpcode ∨ t.faultKind = some .addressOutOfRange) ∧
        t.faultIndex < words ∧
        (∀ n, n ≤ t.faultIndex → (runSteps n s).status = .running ∧ (runSteps n s).pc = 8 * n) ∧
        runSteps (t.faultIndex + 1) s = t ∧ t.mem = (runSteps t.faultIndex s).mem) ∨
     (t.status = .failed ∧ t.faultKind = some .truncatedStream ∧ stream.length % 8 ≠ 0 ∧ t.faultIndex = words ∧
        ∀ n, n ≤ words → (runSteps n s).status = .running ∧ (runSteps n s).pc = 8 * n))

/-- 40_step_and_dispatch.md section 2, an inference of the spec's own: the run is the left fold of the words' semantics, stopping at the first fault; the word at index n is executed
exactly when every word below it executed without raising. -/
def Obligations.RunIsFoldOfWords : Prop :=
  ∀ (straps : Config.Straps) (words : List Word) (tail : List Byte) (s : State), tail.length < 8 →
    launch straps (streamOf words ++ tail) = .ok s →
    runToEnd s = runFold words tail s ∧
    ∀ (n : Nat) (w : Word), words[n]? = some w →
      ((runSteps n s).status = .running ↔ ∀ k, k < n → (runSteps (k + 1) s).status = .running) ∧
      ((runSteps n s).status = .running → fetch (runSteps n s) = .word w)

/-- R47: a run starts with every cell at 0, and a cell that is not 0 in it was the write address of an earlier completed
instruction of that run; the converse does not hold, since a targeted cell may be written with 0. -/
def Obligations.MemoryIsolation : Prop :=
  (∀ straps stream s (a : Nat), launch straps stream = .ok s → s.mem.get a = 0 ∧
    ∀ n, (runSteps n s).mem.get a ≠ 0 → ∃ k, k < n ∧ WroteAt s k a) ∧
  (∃ straps stream s n, ∃ a : Nat, launch straps stream = .ok s ∧ (∃ k, k < n ∧ WroteAt s k a) ∧
    (runSteps n s).mem.get a = 0)

/-- 20_memory.md R40: in a run a cell holds what the most recent completed write to it stored, or 0 where there was none. -/
def Obligations.CellHoldsLatestWrite : Prop :=
  ∀ straps stream s n (a : Nat), launch straps stream = .ok s →
    ((∀ k, k < n → ¬ WroteAt s k a) ∧ (runSteps n s).mem.get a = 0) ∨
    (∃ k w i, k < n ∧ WroteAt s k a ∧ (∀ j, k < j → j < n → ¬ WroteAt s j a) ∧
      fetch (runSteps k s) = .word w ∧ decodeWord w = .ok i ∧
      (runSteps n s).mem.get a = (writeOf i (runSteps k s)).2)

/-! ### Reset and the host -/

/-- 10_state.md section 9: the value of every piece of state after reset, for every straps and stream; the values of the
cursor, the status and the fault record are the spec's own decision D16, the default straps its decisions D3 and D4. -/
def Obligations.ResetValues : Prop :=
  ∀ straps stream,
    let s := State.resetWith straps stream
    (∀ a : Nat, s.mem.get a = 0) ∧ s.mem.wf = true ∧ s.pc = 0 ∧ s.status = .running ∧ s.faultKind = none ∧
    s.faultIndex = 0 ∧ s.straps = straps ∧ s.stream = stream ∧
    State.reset.straps = { writeSrcMode := .raw, immSigned := true } ∧ State.reset.status = .running ∧
    State.reset.pc = 0 ∧ (∀ a : Nat, State.reset.mem.get a = 0) ∧ State.reset.faultKind = none ∧
    State.reset.faultIndex = 0

/-- 70_reset_and_hazards.md section 1 (the spec's own decision D16): reset applied in any state gives the state reset establishes, whatever the run before it left; no step leaves
Halted or Failed. -/
def Obligations.ResetFromAnyState : Prop :=
  ∀ (s : State) (straps : Config.Straps) (stream : List Byte),
    (stream.length < 2 ^ 64 → applyReset s straps stream = .ok (State.resetWith straps stream)) ∧
    (∀ s' : State, applyReset s' straps stream = applyReset s straps stream) ∧
    (s.status = .halted ∨ s.status = .failed → ∀ n, (runSteps n s).status = s.status)

/-- 70_reset_and_hazards.md section 3 (the spec's own decision D13; the answer in Halted only, log 11): a request is legal exactly when `start <= stop <= 1024`; an illegal one made in Halted is a range error and no
data. -/
def Obligations.SnapshotRangeChecked : Prop :=
  ∀ (s : State) (start stop : Nat), s.status = .halted →
    (snapshot s start stop = .rangeError ↔ ¬ (start ≤ stop ∧ stop ≤ 1024)) ∧
    ((∃ cells, snapshot s start stop = .data cells) ↔ start ≤ stop ∧ stop ≤ 1024)

/-- R148: the data of a legal request in Halted is the range's cells in ascending order; no snapshot in Failed or Running. -/
def Obligations.SnapshotGivesRange : Prop :=
  (∀ (s : State) (start stop : Nat), s.status = .halted → start ≤ stop → stop ≤ 1024 →
    ∃ cells, snapshot s start stop = .data cells ∧ cells.length = stop - start ∧
      (start = stop → cells = []) ∧
      ∀ i, i < stop - start → cells[i]? = some (start + i, s.mem.get (start + i))) ∧
  (∀ s : State, s.status = .halted → ∃ cells, snapshot s 0 1024 = .data cells ∧ cells.length = 1024) ∧
  (∀ (s : State) (start stop : Nat), s.status = .failed ∨ s.status = .running → snapshot s start stop = .nothing)

/-- 70_reset_and_hazards.md section 3: the host sees the engine only at the end of a run. -/
def Obligations.HostSeesEndOnly : Prop :=
  ∀ s : State,
    (s.status = .running → hostView s = .nothing) ∧
    (s.status = .halted → hostView s = .halted) ∧
    (s.status = .failed → hostView s = .failed s.faultKind s.faultIndex)

/-! ### The assembler -/

/-- 30_encoding.md section 5 (truncation of C and D by the spec's own decision D18): the packing formula is the encoding of the instruction whose fields are the truncated operands. -/
def Obligations.PackingIsEncoding : Prop :=
  ∀ a : AsmInstr, packWord a = encode (asmInstrOf a)

/-- R62: where each operand fits its field, the decoder gives the operands back; for WRITE its raw C is `64 * C + D`; an
operand that does not fit comes back truncated. -/
def Obligations.AssembledOperandsRoundTrip : Prop :=
  (∀ a : AsmInstr, decodeWord (packWord a) = .ok (asmInstrOf a)) ∧
  (∀ a : AsmInstr, asmFits a = true →
    let out := decoder (packWord a)
    match a with
    | .load b c => out.opcode = 1#4 ∧ (out.b.toNat : Int) = b ∧ (out.c.toNat : Int) = c
    | .read b c => out.opcode = 12#4 ∧ (out.b.toNat : Int) = b ∧ (out.c.toNat : Int) = c
    | .abs b c => out.opcode = 13#4 ∧ (out.b.toNat : Int) = b ∧ (out.c.toNat : Int) = c
    | .write b c d => out.opcode = 15#4 ∧ (out.b.toNat : Int) = b ∧ (out.cp.toNat : Int) = c ∧
        (out.d.toNat : Int) = writtenD d ∧ (out.c.toNat : Int) = 64 * c + writtenD d)

/-- R74: the words of an assembled program are those of its accepted lines in source order, and its stream is the words'
bytes, least significant first; it has only legal opcodes and a length that is a multiple of 8, so no run of it raises
UnknownOpcode or TruncatedStream. -/
def Obligations.AssembledStreamRuns : Prop :=
  ∀ (text : List Char) (x : Assembly), assemble text = .ok x →
    x.words = ((linesOf text).filterMap acceptedLine).map packWord ∧
    x.stream = x.words.flatMap bytesOfWord ∧
    (∀ (w : Word) (i : Nat), i < 8 → (bytesOfWord w)[i]? = some (BitVec.ofNat 8 (w.toNat / 2 ^ (8 * i) % 256))) ∧
    x.stream.length % 8 = 0 ∧
    (∀ w ∈ x.words, (decoder w).opcode.toNat ∈ [1, 12, 13, 15]) ∧
    (∀ straps s n, launch straps x.stream = .ok s →
      (runSteps n s).faultKind ≠ some .unknownOpcode ∧ (runSteps n s).faultKind ≠ some .truncatedStream)

/-- 30_encoding.md section 5 (decisions D18 and D19; white space as log 14 has it, the line's number as log 15 has it): short
lines are skipped whatever their tokens; a longer line with an unknown first token is UnknownCommand; after a known mnemonic
a surplus token or one that is no integer is MalformedLine. A program assembles exactly when no line of it is in error;
otherwise the whole batch is aborted with the error of the first such line. -/
def Obligations.EncoderErrorsAbortBatch : Prop :=
  (∀ line : List Char, (tokens line).length < 3 → parseLine line = .ok none) ∧
  (∀ line t rest, tokens line = t :: rest → 2 ≤ rest.length →
    t ∉ [mnemonicText .load, mnemonicText .read, mnemonicText .write, mnemonicText .abs] →
    parseLine line = .error .unknownCommand) ∧
  (∀ line m rest, tokens line = mnemonicText m :: rest → 2 ≤ rest.length →
    ((if m = .write then 3 else 2) < rest.length ∨ ∃ t ∈ rest, operandOf t = none) →
    parseLine line = .error .malformedLine) ∧
  (∀ text : List Char, (∃ x, assemble text = .ok x) ↔
    ∀ line ∈ linesOf text, ∀ e, parseLine line ≠ .error e) ∧
  (∀ (text : List Char) (err : AsmError), assemble text = .error err ↔
    ∃ line, (linesOf text)[err.line]? = some line ∧ parseLine line = .error err.kind ∧
      ∀ k earlier, k < err.line → (linesOf text)[k]? = some earlier → ∀ e, parseLine earlier ≠ .error e)

/-- 30_encoding.md section 5 (decision D20): the log is one record per accepted line in source order, and so one per word with
the word's opcode; its fields under the names the rule fixes: the mnemonic, A the opcode, B and C as written, D for WRITE
only. -/
def Obligations.LogRecordPerWord : Prop :=
  (∀ (text : List Char) (x : Assembly), assemble text = .ok x →
    x.log = ((linesOf text).filterMap acceptedLine).map logRecord ∧
    x.log.length = x.words.length ∧
    ∀ (n : Nat) (r : LogRecord) (w : Word), x.log[n]? = some r → x.words[n]? = some w →
      r.a = (decoder w).opcode.toNat ∧ r.a = mnemonicOpcode r.command ∧ (r.d.isSome = true ↔ r.command = .write)) ∧
  ∀ a : AsmInstr, logFields (logRecord a) =
    let fields := fun (command : List Char) (opcode b c : Int) =>
      [(['c', 'o', 'm', 'm', 'a', 'n', 'd'], LogValue.text command), (['A'], .number opcode), (['B'], .number b),
        (['C'], .number c)]
    match a with
    | .load b c => fields ['L', 'O', 'A', 'D'] 1 b c
    | .read b c => fields ['R', 'E', 'A', 'D'] 12 b c
    | .abs b c => fields ['A', 'B', 'S'] 13 b c
    | .write b c d => fields ['W', 'R', 'I', 'T', 'E'] 15 b c ++ [(['D'], .number (d.getD 0))]

/-- 30_encoding.md section 5: each of the accepted forms stands for its instruction, whatever the white space between its
tokens (log 14); WRITE's D is 0 where it is left out. A line that is accepted has one of these forms. -/
def Obligations.AcceptedFormsParse : Prop :=
  (∀ line tb tc b c, operandOf tb = some b → operandOf tc = some c →
    (tokens line = [['L', 'O', 'A', 'D'], tb, tc] → parseLine line = .ok (some (.load b c))) ∧
    (tokens line = [['R', 'E', 'A', 'D'], tb, tc] → parseLine line = .ok (some (.read b c))) ∧
    (tokens line = [['A', 'B', 'S'], tb, tc] → parseLine line = .ok (some (.abs b c))) ∧
    (tokens line = [['W', 'R', 'I', 'T', 'E'], tb, tc] → ∃ a, parseLine line = .ok (some a) ∧
      packWord a = packWord (.write b c (some 0)) ∧ logRecord a = logRecord (.write b c (some 0))) ∧
    ∀ td d, operandOf td = some d → tokens line = [['W', 'R', 'I', 'T', 'E'], tb, tc, td] →
      parseLine line = .ok (some (.write b c (some d)))) ∧
  (∀ line a, parseLine line = .ok (some a) → ∃ m tb tc rest b c,
    tokens line = mnemonicText m :: tb :: tc :: rest ∧ operandOf tb = some b ∧ operandOf tc = some c ∧
    (rest = [] ∨ m = .write ∧ ∃ td d, rest = [td] ∧ operandOf td = some d))

/-- 30_encoding.md section 5 (decision D18): an operand token is one or more decimal digits after an optional sign, and its
value is the number they write. -/
def Obligations.OperandTokensAreDecimal : Prop :=
  let isDigit := fun (ch : Char) => '0'.toNat ≤ ch.toNat ∧ ch.toNat ≤ '9'.toNat
  (∀ ds : List Char, ds ≠ [] → (∀ ch ∈ ds, isDigit ch) →
    let v : Int := ds.foldl (fun acc ch => 10 * acc + ((ch.toNat : Int) - '0'.toNat)) 0
    operandOf ds = some v ∧ operandOf ('+' :: ds) = some v ∧ operandOf ('-' :: ds) = some (-v)) ∧
  (∀ t v, operandOf t = some v → ∃ ds, ds ≠ [] ∧ (∀ ch ∈ ds, isDigit ch) ∧
    (t = ds ∨ t = '+' :: ds ∨ t = '-' :: ds))

/-- 30_encoding.md section 5: a text is cut into lines at each line end and a line into tokens at each run of white space
(which characters these are: log 14). -/
def Obligations.TextSplitsIntoLinesAndTokens : Prop :=
  (∀ before after : List Char, linesOf (before ++ '\n' :: after) = linesOf before ++ linesOf after) ∧
  (∀ line : List Char, '\n' ∉ line → linesOf line = [line]) ∧
  (∀ (before after : List Char) (ch : Char), isBlank ch = true →
    tokens (before ++ ch :: after) = tokens before ++ tokens after) ∧
  (∀ token : List Char, token ≠ [] → (∀ ch ∈ token, isBlank ch = false) → tokens token = [token]) ∧
  tokens [] = []

/-- 30_encoding.md section 5 (the byte forms of UTF-8 and the error for other bytes: log 16): every text has one source in
UTF-8 and every source that is UTF-8 is that of one text; the encoder makes of a source what it makes of its text, and
nothing of bytes that are no UTF-8. -/
def Obligations.SourceIsUtf8Text : Prop :=
  (∀ text : List Char, decodeUtf8 (encodeUtf8 text) = some text) ∧
  (∀ (source : List Byte) (text : List Char), decodeUtf8 source = some text → encodeUtf8 text = source) ∧
  (∀ (text : List Char) (x : Assembly), assembleSource (encodeUtf8 text) = .ok x ↔ assemble text = .ok x) ∧
  (∀ (text : List Char) (e : AsmError),
    assembleSource (encodeUtf8 text) = .error (.line e) ↔ assemble text = .error e) ∧
  (∀ source : List Byte, (∀ text, encodeUtf8 text ≠ source) → assembleSource source = .error .notUtf8)
end

