-- ==== Sys2Proof/Laws/Assembler.lean ====
section
/-! SUPPORT. Laws of the encoder: one lemma that says what each of its functions can answer. -/

namespace Sys2Proof.Machine

/-- What a line in error makes of the batch, from any line number on: the error of the first such line. -/
theorem parseLines_error_iff (n : Nat) (ls : List (List Char)) (err : AsmError) :
    parseLines n ls = .error err ↔
      ∃ k line, err.line = n + k ∧ ls[k]? = some line ∧ parseLine line = .error err.kind ∧
        ∀ j earlier, j < k → ls[j]? = some earlier → ∀ e, parseLine earlier ≠ .error e := by
  induction ls generalizing n with
  | nil => simp [parseLines]
  | cons l ls ih =>
    cases hl : parseLine l with
    | error e =>
      simp only [parseLines, hl, Except.error.injEq]
      constructor
      · rintro rfl
        exact ⟨0, l, rfl, rfl, hl, by omega⟩
      · rintro ⟨k, line, hn, hk, he, hb⟩
        cases k with
        | zero =>
          obtain rfl : l = line := by simpa using hk
          obtain rfl : e = err.kind := by simpa [hl] using he
          cases err; simp_all
        | succ k => exact absurd hl (hb 0 l (by omega) rfl e)
    | ok o =>
      have hstep : parseLines n (l :: ls) = .error err ↔ parseLines (n + 1) ls = .error err := by
        cases o with
        | none => simp only [parseLines, hl]
        | some a => simp only [parseLines, hl]; cases parseLines (n + 1) ls <;> simp
      rw [hstep, ih]
      constructor
      · rintro ⟨k, line, hn, hk, he, hb⟩
        refine ⟨k + 1, line, by omega, by simpa using hk, he, fun j x hj hx => ?_⟩
        cases j with
        | zero =>
          obtain rfl : l = x := by simpa using hx
          simp [hl]
        | succ j => exact hb j x (by omega) (by simpa using hx)
      · rintro ⟨k, line, hn, hk, he, hb⟩
        cases k with
        | zero =>
          obtain rfl : l = line := by simpa using hk
          rw [hl] at he; cases he
        | succ k =>
          exact ⟨k, line, by omega, by simpa using hk, he,
            fun j x hj hx => hb (j + 1) x (by omega) (by simpa using hx)⟩

/-- The instructions of a batch without error are those of its accepted lines, in order. -/
theorem parseLines_ok_iff (n : Nat) (ls : List (List Char)) (as : List AsmInstr) :
    parseLines n ls = .ok as ↔ (∀ l ∈ ls, ∀ e, parseLine l ≠ .error e) ∧ as = ls.filterMap acceptedLine := by
  induction ls generalizing n as with
  | nil => simp [parseLines, eq_comm]
  | cons l ls ih =>
    cases hl : parseLine l with
    | error e => simp [parseLines, hl]
    | ok o =>
      have hacc : acceptedLine l = o := by simp [acceptedLine, hl]
      cases o with
      | none => simp [parseLines, hl, hacc, ih]
      | some a =>
        simp only [parseLines, hl, List.filterMap_cons, hacc]
        cases hr : parseLines (n + 1) ls with
        | error e =>
          have := mt (ih (n + 1) (ls.filterMap acceptedLine)).2
          simp only [hr, reduceCtorEq, not_false_eq_true, forall_const, and_true] at this
          simp [hl, this]
        | ok bs =>
          obtain ⟨hb, rfl⟩ := (ih (n + 1) bs).1 hr
          simp only [Except.ok.injEq, List.mem_cons, forall_eq_or_imp, hl]
          exact ⟨fun h => ⟨⟨by simp, hb⟩, h.symm⟩, fun h => h.2.symm⟩

/-- What the encoder answers on a text without error. -/
theorem assemble_ok_iff (text : List Char) (x : Assembly) :
    assemble text = .ok x ↔ (∀ l ∈ linesOf text, ∀ e, parseLine l ≠ .error e) ∧
      x = { words := ((linesOf text).filterMap acceptedLine).map packWord
            log := ((linesOf text).filterMap acceptedLine).map logRecord } := by
  cases h : parseLines 0 (linesOf text) with
  | ok as =>
    obtain ⟨hb, rfl⟩ := (parseLines_ok_iff _ _ _).1 h
    simp only [assemble, h, Except.ok.injEq]
    exact ⟨fun hx => ⟨hb, hx.symm⟩, fun hx => hx.2.symm⟩
  | error e =>
    obtain ⟨k, line, -, hk, he, -⟩ := (parseLines_error_iff _ _ _).1 h
    simp only [assemble, h, reduceCtorEq, false_iff]
    exact fun hx => hx.1 line (List.mem_of_getElem? hk) _ he

/-- The error the encoder answers on a text is that of its lines. -/
theorem assemble_error_iff (text : List Char) (err : AsmError) :
    assemble text = .error err ↔ parseLines 0 (linesOf text) = .error err := by
  unfold assemble
  cases parseLines 0 (linesOf text) <;> simp

/-- What a line is made of, by its tokens. -/
theorem parseLine_of_tokens {line t : List Char} {rest : List (List Char)} (h : tokens line = t :: rest)
    (hr : 2 ≤ rest.length) :
    parseLine line = match mnemonicOf t with
      | none => .error .unknownCommand
      | some m => (operandsOf m rest).map some := by
  match rest, hr with
  | b :: c :: r, _ =>
    simp only [parseLine, h]
    cases mnemonicOf t with
    | none => rfl
    | some m => cases ho : operandsOf m (b :: c :: r) <;> simp [ho, Except.map]

/-- Each mnemonic's text is that of no other. -/
@[simp] theorem mnemonicOf_text (m : Mnemonic) : mnemonicOf (mnemonicText m) = some m := by cases m <;> rfl

/-- A source is assembled as the text it stands for. -/
theorem assembleSource_of_text {source : List Byte} {text : List Char} (h : decodeUtf8 source = some text) :
    assembleSource source = (assemble text).mapError .line := by
  simp only [assembleSource, h]
  cases assemble text <;> rfl

/-- The character of a code point, and when there is one. -/
theorem utf8Char_some_iff (least v : Nat) (ch : Char) : utf8Char least v = some ch ↔ least ≤ v ∧ ch.toNat = v := by
  unfold utf8Char
  split
  · rename_i h
    rw [Option.some.injEq]
    constructor
    · rintro rfl
      exact ⟨h.1, by rw [Char.ofNat, dif_pos h.2]; rfl⟩
    · rintro ⟨-, rfl⟩
      exact Char.ofNat_toNat ch
  · rename_i h
    simp only [reduceCtorEq, false_iff]
    rintro ⟨hl, rfl⟩
    exact h ⟨hl, ch.valid⟩

theorem utf8Octet_toNat {v : Nat} (h : v < 256) : (utf8Octet v).toNat = v := by
  simp only [utf8Octet, BitVec.toNat_ofNat]; omega

/-- A character's code point is below 0x110000. -/
theorem char_toNat_lt (ch : Char) : ch.toNat < 0x110000 := by
  rcases ch.valid with h | ⟨_, h⟩
  · have : ch.toNat < 0xD800 := h
    omega
  · exact h

/-- The bytes of a character begin with a byte that continues none. -/
theorem encodeUtf8Char_head (ch : Char) :
    ∃ x rest, encodeUtf8Char ch = x :: rest ∧ (x.toNat < 0x80 ∨ 0xC0 ≤ x.toNat) := by
  have hlt := char_toNat_lt ch
  unfold encodeUtf8Char
  simp only
  split
  · exact ⟨_, _, rfl, .inl (by rw [utf8Octet_toNat] <;> omega)⟩
  · split
    · exact ⟨_, _, rfl, .inr (by rw [utf8Octet_toNat] <;> omega)⟩
    · split <;> exact ⟨_, _, rfl, .inr (by rw [utf8Octet_toNat] <;> omega)⟩

end Sys2Proof.Machine
end

