-- ==== Sys2Proof/Laws/Decode.lean ====
section
/-! SUPPORT. The decoder's fields and the encoder's words as numbers, and that laying a word out in bytes loses nothing. -/

namespace Sys2Proof

/-- Concatenation as arithmetic. -/
theorem toNat_append_add {n m : Nat} (x : BitVec n) (y : BitVec m) :
    (x ++ y).toNat = x.toNat * 2 ^ m + y.toNat := by
  rw [BitVec.toNat_append, ← Nat.shiftLeft_add_eq_or_of_lt y.isLt, Nat.shiftLeft_eq]

/-- The little-endian word as the sum of R33. -/
theorem wordOfBytes_toNat (b0 b1 b2 b3 b4 b5 b6 b7 : Byte) :
    (wordOfBytes b0 b1 b2 b3 b4 b5 b6 b7).toNat =
      b0.toNat + b1.toNat * 2 ^ 8 + b2.toNat * 2 ^ 16 + b3.toNat * 2 ^ 24 + b4.toNat * 2 ^ 32 +
        b5.toNat * 2 ^ 40 + b6.toNat * 2 ^ 48 + b7.toNat * 2 ^ 56 := by
  simp only [wordOfBytes, toNat_append_add]
  omega

/-- A slice as arithmetic. -/
theorem toNat_slice {n : Nat} (w : BitVec n) (lo len : Nat) :
    (w.extractLsb' lo len).toNat = w.toNat / 2 ^ lo % 2 ^ len := by
  rw [BitVec.extractLsb'_toNat, Nat.shiftRight_eq_div_pow]

theorem decoder_opcode_toNat (w : Word) : (decoder w).opcode.toNat = w.toNat / 2 ^ 60 := by
  have := w.isLt
  simp only [decoder, toNat_slice]
  omega

theorem decoder_b_toNat (w : Word) : (decoder w).b.toNat = w.toNat / 2 ^ 32 % 2 ^ 28 := by
  simp only [decoder, toNat_slice]

theorem decoder_c_toNat (w : Word) : (decoder w).c.toNat = w.toNat % 2 ^ 32 := by
  simp only [decoder, toNat_slice]
  omega

theorem decoder_cp_toNat (w : Word) : (decoder w).cp.toNat = w.toNat / 2 ^ 6 % 2 ^ 26 := by
  simp only [decoder, toNat_slice]

theorem decoder_d_toNat (w : Word) : (decoder w).d.toNat = w.toNat % 2 ^ 6 := by
  simp only [decoder, toNat_slice]
  omega

theorem decoder_op (w : Word) : (decoder w).op = opOf (decoder w).opcode := rfl

/-- The fields of an encoded word of format BC. -/
theorem encode_load_toNat (b : BitVec 28) (c : BitVec 32) :
    (encode (.load b c)).toNat = 1 * 2 ^ 60 + b.toNat * 2 ^ 32 + c.toNat := by
  simp only [encode, toNat_append_add, BitVec.toNat_ofNat]
  omega

theorem encode_read_toNat (b : BitVec 28) (c : BitVec 32) :
    (encode (.read b c)).toNat = 12 * 2 ^ 60 + b.toNat * 2 ^ 32 + c.toNat := by
  simp only [encode, toNat_append_add, BitVec.toNat_ofNat]
  omega

theorem encode_abs_toNat (b : BitVec 28) (c : BitVec 32) :
    (encode (.abs b c)).toNat = 13 * 2 ^ 60 + b.toNat * 2 ^ 32 + c.toNat := by
  simp only [encode, toNat_append_add, BitVec.toNat_ofNat]
  omega

/-- The fields of an encoded word of format BCD. -/
theorem encode_write_toNat (b : BitVec 28) (cp : BitVec 26) (d : BitVec 6) :
    (encode (.write b cp d)).toNat = 15 * 2 ^ 60 + b.toNat * 2 ^ 32 + (cp.toNat * 2 ^ 6 + d.toNat) := by
  simp only [encode, toNat_append_add, BitVec.toNat_ofNat]
  omega

/-- The bytes of a word make that word again. -/
theorem splitWord_bytesOfWord (w : Word) (rest : List Byte) :
    splitWord (bytesOfWord w ++ rest) = some (w, rest) := by
  simp only [bytesOfWord, List.cons_append, List.nil_append, splitWord, Option.some.injEq, Prod.mk.injEq, and_true]
  apply BitVec.eq_of_toNat_eq
  rw [wordOfBytes_toNat]
  simp only [toNat_slice]
  have := w.isLt
  omega

theorem bytesOfWord_length (w : Word) : (bytesOfWord w).length = 8 := rfl

/-- Fewer than eight bytes hold no word. -/
theorem splitWord_of_short {bytes : List Byte} (h : bytes.length < 8) : splitWord bytes = none := by
  unfold splitWord
  split
  · simp at h; omega
  · rfl

/-- Eight bytes or more hold a word. -/
theorem splitWord_of_long {bytes : List Byte} (h : 8 ≤ bytes.length) :
    ∃ w, splitWord bytes = some (w, bytes.drop 8) := by
  match bytes, h with
  | b0 :: b1 :: b2 :: b3 :: b4 :: b5 :: b6 :: b7 :: rest, _ => exact ⟨_, rfl⟩

/-- Every rejection of a word is that of an illegal opcode. -/
theorem decodeWord_cases (w : Word) :
    (∃ i, decodeWord w = .ok i ∧ (decoder w).op = opOfInstr i ∧ (decoder w).op ≠ .illegal) ∨
      (decodeWord w = .error (.unknownOpcode (decoder w).opcode) ∧ (decoder w).op = .illegal) := by
  unfold decodeWord
  cases h : (decoder w).op <;> simp [opOfInstr]

end Sys2Proof
end

