-- ==== Sys2Proof/Laws/Memory.lean ====
section
/-! SUPPORT. The memory array: read after write, writes elsewhere, the canonical form, and that canonical memories with equal
reads are equal. -/

namespace Sys2Proof.Machine

@[simp] theorem Memory.get_nil (k : Nat) : Memory.get [] k = 0 := rfl

theorem Memory.get_cons (j : Nat) (v : Int) (m : Memory) (k : Nat) :
    Memory.get ((j, v) :: m) k = if j = k then v else Memory.get m k := rfl

theorem Memory.get_erase (m : Memory) (k a : Nat) :
    (m.erase k).get a = if a = k then 0 else m.get a := by
  induction m with
  | nil => simp [Memory.erase]
  | cons p rest ih =>
    obtain ⟨j, v⟩ := p
    by_cases hj : j = k
    · subst hj
      have hdrop : Memory.erase ((j, v) :: rest) j = Memory.erase rest j := by simp [Memory.erase]
      rw [hdrop, ih, Memory.get_cons]
      split <;> rename_i h
      · rfl
      · simp [Ne.symm h]
    · have hkeep : Memory.erase ((j, v) :: rest) k = (j, v) :: Memory.erase rest k := by
        simp [Memory.erase, hj]
      rw [hkeep, Memory.get_cons, Memory.get_cons, ih]
      grind

theorem Memory.get_insert (m : Memory) (k a : Nat) (v : Int) :
    (m.insert k v).get a = if a = k then v else m.get a := by
  induction m with
  | nil => simp only [Memory.insert, Memory.get_cons, Memory.get_nil]; grind
  | cons p rest ih =>
    obtain ⟨j, w⟩ := p
    simp only [Memory.insert]
    split
    · simp only [Memory.get_cons]; grind
    · split
      · simp only [Memory.get_cons]; grind
      · simp only [Memory.get_cons, ih]; grind

/-- Reading after a write: the written cell gives the value, every other cell what it gave before. -/
@[simp] theorem Memory.get_set (m : Memory) (k a : Nat) (v : Int) :
    (m.set k v).get a = if a = k then v else m.get a := by
  unfold Memory.set
  split
  · next h => rw [Memory.get_erase, h]
  · exact Memory.get_insert m k a v

theorem Memory.get_of_lt_lo {m : Memory} {lo : Nat} (h : m.wfFrom lo = true) {a : Nat} (ha : a < lo) :
    m.get a = 0 := by
  induction m generalizing lo with
  | nil => rfl
  | cons p rest ih =>
    obtain ⟨j, v⟩ := p
    simp only [Memory.wfFrom, Bool.and_eq_true, decide_eq_true_eq] at h
    rw [Memory.get_cons, if_neg (by omega)]
    exact ih h.2 (by omega)

theorem Memory.wfFrom_mono {m : Memory} {lo lo' : Nat} (h : m.wfFrom lo = true) (hl : lo' ≤ lo) :
    m.wfFrom lo' = true := by
  cases m with
  | nil => rfl
  | cons p rest =>
    obtain ⟨j, v⟩ := p
    simp only [Memory.wfFrom, Bool.and_eq_true, decide_eq_true_eq] at h ⊢
    exact ⟨⟨⟨by omega, h.1.1.2⟩, h.1.2⟩, h.2⟩

theorem Memory.wfFrom_erase {m : Memory} {lo : Nat} (h : m.wfFrom lo = true) (k : Nat) :
    (m.erase k).wfFrom lo = true := by
  induction m generalizing lo with
  | nil => rfl
  | cons p rest ih =>
    obtain ⟨j, v⟩ := p
    simp only [Memory.wfFrom, Bool.and_eq_true, decide_eq_true_eq] at h
    have hr := ih h.2
    by_cases hj : j = k
    · have hdrop : Memory.erase ((j, v) :: rest) k = Memory.erase rest k := by simp [Memory.erase, hj]
      rw [hdrop]
      exact Memory.wfFrom_mono hr (by omega)
    · have hkeep : Memory.erase ((j, v) :: rest) k = (j, v) :: Memory.erase rest k := by
        simp [Memory.erase, hj]
      simp only [hkeep, Memory.wfFrom, Bool.and_eq_true, decide_eq_true_eq]
      exact ⟨h.1, hr⟩

theorem Memory.wfFrom_insert {m : Memory} {lo : Nat} (h : m.wfFrom lo = true) {k : Nat} {v : Int}
    (hlo : lo ≤ k) (hk : k < 1024) (hv : v ≠ 0) : (m.insert k v).wfFrom lo = true := by
  induction m generalizing lo with
  | nil => simp [Memory.insert, Memory.wfFrom, hlo, hk, hv]
  | cons p rest ih =>
    obtain ⟨j, w⟩ := p
    simp only [Memory.wfFrom, Bool.and_eq_true, decide_eq_true_eq] at h
    simp only [Memory.insert]
    split
    · next hkj =>
      simp only [Memory.wfFrom, Bool.and_eq_true, decide_eq_true_eq]
      exact ⟨⟨⟨hlo, hk⟩, hv⟩, ⟨⟨by omega, h.1.1.2⟩, h.1.2⟩, h.2⟩
    · split
      · next hkj =>
        subst hkj
        simp only [Memory.wfFrom, Bool.and_eq_true, decide_eq_true_eq]
        exact ⟨⟨⟨hlo, hk⟩, hv⟩, h.2⟩
      · simp only [Memory.wfFrom, Bool.and_eq_true, decide_eq_true_eq]
        exact ⟨h.1, ih h.2 (by omega)⟩

/-- A write of a cell that exists keeps the canonical form. -/
theorem Memory.wf_set {m : Memory} (h : m.wf = true) {k : Nat} (hk : k < 1024) (v : Int) :
    (m.set k v).wf = true := by
  unfold Memory.set
  split
  · exact Memory.wfFrom_erase h k
  · next hv => exact Memory.wfFrom_insert h (Nat.zero_le k) hk hv

/-- In canonical form only existing cells are listed. -/
theorem Memory.get_of_ge {m : Memory} {lo : Nat} (h : m.wfFrom lo = true) {a : Nat} (ha : 1024 ≤ a) :
    m.get a = 0 := by
  induction m generalizing lo with
  | nil => rfl
  | cons p rest ih =>
    obtain ⟨j, v⟩ := p
    simp only [Memory.wfFrom, Bool.and_eq_true, decide_eq_true_eq] at h
    rw [Memory.get_cons, if_neg (by omega)]
    exact ih h.2

/-- The memory reset leaves is in canonical form. -/
theorem State.resetWith_mem_wf (st : Config.Straps) (S : List Byte) : (State.resetWith st S).mem.wf = true := rfl

/-- What a checked index says. -/
theorem checkIndex_of_inRange {a : Int} (h : InRange a) : checkIndex a = .ok () := if_pos h
theorem checkIndex_of_not {a : Int} (h : ¬ InRange a) : checkIndex a = .error .addressOutOfRange := if_neg h

/-- What `MemRead` says: the cell, or the fault where the index names none. -/
theorem memRead_of_inRange {m : Memory} {a : Int} (h : InRange a) : memRead m a = .ok (m.get a.toNat) := if_pos h
theorem memRead_of_not {m : Memory} {a : Int} (h : ¬ InRange a) : memRead m a = .error .addressOutOfRange :=
  if_neg h

/-- What `MemWrite` says: the array with the cell set, or the fault where the index names none. -/
theorem memWrite_of_inRange {m : Memory} {a : Int} {v : Int} (h : InRange a) :
    memWrite m a v = .ok (m.set a.toNat v) := if_pos h
theorem memWrite_of_not {m : Memory} {a : Int} {v : Int} (h : ¬ InRange a) :
    memWrite m a v = .error .addressOutOfRange := if_neg h

/-- A write that takes place keeps the canonical form. -/
theorem memWrite_wf {m m' : Memory} {a : Int} {v : Int} (h : m.wf = true) (hw : memWrite m a v = .ok m') :
    m'.wf = true := by
  by_cases ha : InRange a
  · rw [memWrite_of_inRange ha] at hw
    cases hw
    exact Memory.wf_set h (by have := ha.1; have := ha.2; omega) v
  · rw [memWrite_of_not ha] at hw
    cases hw

end Sys2Proof.Machine
end

