-- ==== Sys2Proof/Laws/State.lean ====
section
/-! SUPPORT. What each update of the state leaves in each field, and the fields of the reset states, so that no proof unfolds
a record update. -/

namespace Sys2Proof.Machine

@[simp] theorem raiseFault_mem (s : State) (k : EngineFault) : (raiseFault s k).mem = s.mem := rfl
@[simp] theorem raiseFault_pc (s : State) (k : EngineFault) : (raiseFault s k).pc = s.pc := rfl
@[simp] theorem raiseFault_status (s : State) (k : EngineFault) : (raiseFault s k).status = .failed := rfl
@[simp] theorem raiseFault_faultKind (s : State) (k : EngineFault) : (raiseFault s k).faultKind = some k := rfl
@[simp] theorem raiseFault_faultIndex (s : State) (k : EngineFault) : (raiseFault s k).faultIndex = s.pc / 8 := rfl
@[simp] theorem raiseFault_stream (s : State) (k : EngineFault) : (raiseFault s k).stream = s.stream := rfl
@[simp] theorem raiseFault_straps (s : State) (k : EngineFault) : (raiseFault s k).straps = s.straps := rfl

@[simp] theorem halt_mem (s : State) : (halt s).mem = s.mem := rfl
@[simp] theorem halt_pc (s : State) : (halt s).pc = s.pc := rfl
@[simp] theorem halt_status (s : State) : (halt s).status = .halted := rfl
@[simp] theorem halt_faultKind (s : State) : (halt s).faultKind = s.faultKind := rfl
@[simp] theorem halt_faultIndex (s : State) : (halt s).faultIndex = s.faultIndex := rfl
@[simp] theorem halt_stream (s : State) : (halt s).stream = s.stream := rfl
@[simp] theorem halt_straps (s : State) : (halt s).straps = s.straps := rfl

@[simp] theorem advanceWith_mem (s : State) (m : Memory) : (advanceWith s m).mem = m := rfl
@[simp] theorem advanceWith_pc (s : State) (m : Memory) : (advanceWith s m).pc = s.pc + 8 := rfl
@[simp] theorem advanceWith_status (s : State) (m : Memory) : (advanceWith s m).status = s.status := rfl
@[simp] theorem advanceWith_faultKind (s : State) (m : Memory) : (advanceWith s m).faultKind = s.faultKind := rfl
@[simp] theorem advanceWith_faultIndex (s : State) (m : Memory) : (advanceWith s m).faultIndex = s.faultIndex := rfl
@[simp] theorem advanceWith_stream (s : State) (m : Memory) : (advanceWith s m).stream = s.stream := rfl
@[simp] theorem advanceWith_straps (s : State) (m : Memory) : (advanceWith s m).straps = s.straps := rfl

@[simp] theorem State.resetWith_mem (st : Config.Straps) (S : List Byte) : (State.resetWith st S).mem = [] := rfl
@[simp] theorem State.resetWith_pc (st : Config.Straps) (S : List Byte) : (State.resetWith st S).pc = 0 := rfl
@[simp] theorem State.resetWith_status (st : Config.Straps) (S : List Byte) : (State.resetWith st S).status = .running := rfl
@[simp] theorem State.resetWith_faultKind (st : Config.Straps) (S : List Byte) : (State.resetWith st S).faultKind = none := rfl
@[simp] theorem State.resetWith_faultIndex (st : Config.Straps) (S : List Byte) : (State.resetWith st S).faultIndex = 0 := rfl
@[simp] theorem State.resetWith_stream (st : Config.Straps) (S : List Byte) : (State.resetWith st S).stream = S := rfl
@[simp] theorem State.resetWith_straps (st : Config.Straps) (S : List Byte) : (State.resetWith st S).straps = st := rfl

theorem State.reset_eq : State.reset = State.resetWith Config.defaultStraps [] := rfl

@[simp] theorem complete_ok (s : State) (m : Memory) : complete s (.ok m) = .next (advanceWith s m) := rfl
@[simp] theorem complete_error (s : State) (k : EngineFault) : complete s (.error k) = .next (raiseFault s k) := rfl

end Sys2Proof.Machine
end

