-- ==== Sys2Proof/Laws/Exec.lean ====
section
/-! SUPPORT. One specification lemma per meaning: either every index is in range and the array takes one write, or the fault
is entered; and what a step can do. -/

namespace Sys2Proof.Machine

open Sys2Proof.Safety

theorem inRange_indexB (b : BitVec 28) : InRange (indexB b) ↔ b.toNat ≤ 1023 := by
  simp only [InRange, indexB]; omega

theorem inRange_indexC (c : BitVec 32) : InRange (indexC c) ↔ c.toNat ≤ 1023 := by
  simp only [InRange, indexC]; omega

@[simp] theorem indexB_toNat (b : BitVec 28) : (indexB b).toNat = b.toNat := by simp [indexB]
@[simp] theorem indexC_toNat (c : BitVec 32) : (indexC c).toNat = c.toNat := by simp [indexC]

theorem rawField_toNat (cp : BitVec 26) (d : BitVec 6) : (rawField cp d).toNat = 64 * cp.toNat + d.toNat := by
  rw [rawField, toNat_append_add]; omega

theorem execLoad_spec (b : BitVec 28) (c : BitVec 32) (s : State) :
    (Completes (.load b c) s ∧ execLoad b c s =
      .next (advanceWith s (s.mem.set (writeOf (.load b c) s).1 (writeOf (.load b c) s).2))) ∨
    (¬ Completes (.load b c) s ∧ execLoad b c s = .next (raiseFault s .addressOutOfRange)) := by
  by_cases hb : InRange (indexB b)
  · exact .inl ⟨(inRange_indexB b).1 hb, by simp [execLoad, checkIndex_of_inRange hb, memWrite_of_inRange hb, writeOf, bind, Except.bind]⟩
  · exact .inr ⟨fun h => hb ((inRange_indexB b).2 h), by simp [execLoad, checkIndex_of_not hb, bind, Except.bind]⟩

theorem execRead_spec (b : BitVec 28) (c : BitVec 32) (s : State) :
    (Completes (.read b c) s ∧ execRead b c s =
      .next (advanceWith s (s.mem.set (writeOf (.read b c) s).1 (writeOf (.read b c) s).2))) ∨
    (¬ Completes (.read b c) s ∧ execRead b c s = .next (raiseFault s .addressOutOfRange)) := by
  by_cases hb : InRange (indexB b)
  · by_cases hc : InRange (indexC c)
    · exact .inl ⟨⟨(inRange_indexB b).1 hb, (inRange_indexC c).1 hc⟩,
        by simp [execRead, checkIndex_of_inRange hb, checkIndex_of_inRange hc, memRead_of_inRange hc,
          memWrite_of_inRange hb, writeOf, bind, Except.bind]⟩
    · exact .inr ⟨fun h => hc ((inRange_indexC c).2 h.2), by
        simp [execRead, checkIndex_of_inRange hb, checkIndex_of_not hc, bind, Except.bind]⟩
  · exact .inr ⟨fun h => hb ((inRange_indexB b).2 h.1), by simp [execRead, checkIndex_of_not hb, bind, Except.bind]⟩

theorem execAbs_spec (b : BitVec 28) (c : BitVec 32) (s : State) :
    (Completes (.abs b c) s ∧ execAbs b c s =
      .next (advanceWith s (s.mem.set (writeOf (.abs b c) s).1 (writeOf (.abs b c) s).2))) ∨
    (¬ Completes (.abs b c) s ∧ execAbs b c s = .next (raiseFault s .addressOutOfRange)) := by
  by_cases hb : InRange (indexB b)
  · by_cases hc : InRange (indexC c)
    · exact .inl ⟨⟨(inRange_indexB b).1 hb, (inRange_indexC c).1 hc⟩,
        by simp [execAbs, checkIndex_of_inRange hb, checkIndex_of_inRange hc, memRead_of_inRange hc,
          memWrite_of_inRange hb, writeOf, bind, Except.bind]⟩
    · exact .inr ⟨fun h => hc ((inRange_indexC c).2 h.2), by
        simp [execAbs, checkIndex_of_inRange hb, checkIndex_of_not hc, bind, Except.bind]⟩
  · exact .inr ⟨fun h => hb ((inRange_indexB b).2 h.1), by simp [execAbs, checkIndex_of_not hb, bind, Except.bind]⟩

theorem execWrite_spec (b : BitVec 28) (cp : BitVec 26) (d : BitVec 6) (s : State) :
    (Completes (.write b cp d) s ∧ execWrite b cp d s =
      .next (advanceWith s (s.mem.set (writeOf (.write b cp d) s).1 (writeOf (.write b cp d) s).2))) ∨
    (¬ Completes (.write b cp d) s ∧ execWrite b cp d s = .next (raiseFault s .addressOutOfRange)) := by
  by_cases hb : InRange (indexB b)
  · by_cases ht : InRange (targetIndex (s.mem.get b.toNat) d)
    · by_cases hs : InRange (writeSource s.straps.writeSrcMode cp d)
      · exact .inl ⟨⟨(inRange_indexB b).1 hb, ht, hs⟩,
          by simp [execWrite, checkIndex_of_inRange hb, memRead_of_inRange hb, checkIndex_of_inRange ht,
            checkIndex_of_inRange hs, memRead_of_inRange hs, memWrite_of_inRange ht, writeOf, bind, Except.bind]⟩
      · exact .inr ⟨fun h => hs h.2.2, by
          simp [execWrite, checkIndex_of_inRange hb, memRead_of_inRange hb, checkIndex_of_inRange ht,
            checkIndex_of_not hs, bind, Except.bind]⟩
    · exact .inr ⟨fun h => ht h.2.1, by
        simp [execWrite, checkIndex_of_inRange hb, memRead_of_inRange hb, checkIndex_of_not ht, bind, Except.bind]⟩
  · exact .inr ⟨fun h => hb ((inRange_indexB b).2 h.1), by simp [execWrite, checkIndex_of_not hb, bind, Except.bind]⟩

/-- Every instruction either completes with its one array write, or enters AddressOutOfRange. -/
theorem exec_cases (i : Instr) (s : State) :
    (Completes i s ∧ exec i s = .next (advanceWith s (s.mem.set (writeOf i s).1 (writeOf i s).2))) ∨
    (¬ Completes i s ∧ exec i s = .next (raiseFault s .addressOutOfRange)) := by
  cases i with
  | load b c => exact execLoad_spec b c s
  | read b c => exact execRead_spec b c s
  | abs b c => exact execAbs_spec b c s
  | write b cp d => exact execWrite_spec b cp d s

/-- The cell an instruction that completes writes exists, and is the write address of the table. -/
theorem writeAddress_of_completes {i : Instr} {s : State} (h : Completes i s) :
    writeAddress i s = some ((writeOf i s).1 : Int) ∧ (writeOf i s).1 < 1024 := by
  cases i with
  | load b c => exact ⟨rfl, by simp only [Completes] at h; simp only [writeOf]; omega⟩
  | read b c => exact ⟨rfl, by simp only [Completes] at h; simp only [writeOf]; omega⟩
  | abs b c => exact ⟨rfl, by simp only [Completes] at h; simp only [writeOf]; omega⟩
  | write b cp d =>
    obtain ⟨hb, ht, _⟩ := h
    refine ⟨?_, ?_⟩
    · simp only [writeAddress, if_pos ((inRange_indexB b).2 hb), writeOf, Int.toNat_of_nonneg ht.1]
    · have := ht.2
      simp only [writeOf]
      omega

/-- What fetch delivers, by the bytes left. -/
theorem fetch_cases (s : State) :
    (s.pc = s.stream.length ∧ fetch s = .endOfStream) ∨
    (s.pc ≠ s.stream.length ∧ s.stream.length - s.pc < 8 ∧ fetch s = .partialWord (s.stream.length - s.pc)) ∨
    (8 ≤ s.stream.length - s.pc ∧ ∃ w, fetch s = .word w ∧
      splitWord (s.stream.drop s.pc) = some (w, (s.stream.drop s.pc).drop 8)) := by
  by_cases he : s.pc = s.stream.length
  · exact .inl ⟨he, by simp [fetch, he]⟩
  · by_cases hl : s.stream.length - s.pc < 8
    · refine .inr (.inl ⟨he, hl, ?_⟩)
      simp [fetch, he, splitWord_of_short (bytes := s.stream.drop s.pc) (by simpa using hl)]
    · obtain ⟨w, hw⟩ := splitWord_of_long (bytes := s.stream.drop s.pc) (by simp; omega)
      exact .inr (.inr ⟨by omega, w, by simp only [fetch, he, if_false, hw], hw⟩)

/-- Everything a step that answers a next state can have done (R85). -/
theorem step_cases {s t : State} (h : step s = .next t) :
    s.status = .running ∧
    ((s.pc = s.stream.length ∧ t = halt s) ∨
     (s.pc ≠ s.stream.length ∧ s.stream.length - s.pc < 8 ∧ t = raiseFault s .truncatedStream) ∨
     (8 ≤ s.stream.length - s.pc ∧ ∃ w, fetch s = .word w ∧
      (((decoder w).op = .illegal ∧ t = raiseFault s .unknownOpcode) ∨
       ∃ i, decodeWord w = .ok i ∧
        ((Completes i s ∧ t = advanceWith s (s.mem.set (writeOf i s).1 (writeOf i s).2)) ∨
         (¬ Completes i s ∧ t = raiseFault s .addressOutOfRange))))) := by
  cases hs : s.status with
  | halted => simp [step, hs] at h
  | failed => simp [step, hs] at h
  | running =>
    refine ⟨rfl, ?_⟩
    rcases fetch_cases s with ⟨he, hf⟩ | ⟨he, hl, hf⟩ | ⟨hl, w, hf, -⟩
    · exact .inl ⟨he, by simpa [step, hs, hf] using h.symm⟩
    · exact .inr (.inl ⟨he, hl, by simpa [step, hs, hf] using h.symm⟩)
    · refine .inr (.inr ⟨hl, w, hf, ?_⟩)
      rcases decodeWord_cases w with ⟨i, hd, -, -⟩ | ⟨hd, hop⟩
      · refine .inr ⟨i, hd, ?_⟩
        simp only [step, hs, hf, hd] at h
        rcases exec_cases i s with ⟨hc, he⟩ | ⟨hc, he⟩ <;> rw [he] at h <;> cases h
        · exact .inl ⟨hc, rfl⟩
        · exact .inr ⟨hc, rfl⟩
      · exact .inl ⟨hop, by simpa [step, hs, hf, hd] using h.symm⟩

/-- While Running every step answers a next state. -/
theorem step_running {s : State} (h : s.status = .running) : ∃ t, step s = .next t := by
  unfold step
  rw [h]
  rcases fetch_cases s with ⟨_, hf⟩ | ⟨_, _, hf⟩ | ⟨_, w, hf, -⟩ <;> rw [hf]
  · exact ⟨_, rfl⟩
  · exact ⟨_, rfl⟩
  · rcases decodeWord_cases w with ⟨i, hd, -, -⟩ | ⟨hd, -⟩ <;> simp only [hd]
    · rcases exec_cases i s with ⟨-, he⟩ | ⟨-, he⟩ <;> exact ⟨_, he⟩
    · exact ⟨_, rfl⟩

end Sys2Proof.Machine
end

