-- ==== Sys2Proof/Laws/PerInstr.lean ====
section
/-! SUPPORT. Per-instruction families. OpcodeOfEncoding: the encoded word carries the instruction's own opcode of R57 in its
top four bits, and the decoder's verdict on it is that instruction. -/

namespace Sys2Proof.Laws.OpcodeOfEncoding

open Sys2Proof

/-- The opcode and the verdict of the encoded word. -/
def Statement (i : Instr) : Prop :=
  (decoder (encode i)).opcode = opcodeOf i ∧ (decoder (encode i)).op = opOfInstr i

theorem of_opcode {i : Instr} (h : (encode i).toNat / 2 ^ 60 = (opcodeOf i).toNat)
    (hop : opOf (opcodeOf i) = opOfInstr i) : Statement i := by
  have ho : (decoder (encode i)).opcode = opcodeOf i := by
    apply BitVec.eq_of_toNat_eq
    rw [decoder_opcode_toNat, h]
  exact ⟨ho, by rw [decoder_op, ho, hop]⟩

theorem load (b : BitVec 28) (c : BitVec 32) : Statement (.load b c) :=
  of_opcode (by rw [encode_load_toNat]; have := b.isLt; have := c.isLt; simp only [opcodeOf, BitVec.toNat_ofNat]; omega) rfl

theorem read (b : BitVec 28) (c : BitVec 32) : Statement (.read b c) :=
  of_opcode (by rw [encode_read_toNat]; have := b.isLt; have := c.isLt; simp only [opcodeOf, BitVec.toNat_ofNat]; omega) rfl

theorem abs (b : BitVec 28) (c : BitVec 32) : Statement (.abs b c) :=
  of_opcode (by rw [encode_abs_toNat]; have := b.isLt; have := c.isLt; simp only [opcodeOf, BitVec.toNat_ofNat]; omega) rfl

theorem write (b : BitVec 28) (cp : BitVec 26) (d : BitVec 6) : Statement (.write b cp d) :=
  of_opcode (by
    rw [encode_write_toNat]; have := b.isLt; have := cp.isLt; have := d.isLt
    simp only [opcodeOf, BitVec.toNat_ofNat]; omega) rfl

end Sys2Proof.Laws.OpcodeOfEncoding
end

