-- ==== Sys2Proof/Tests/Slice0.lean ====
section
/-! SUPPORT. Tests whose expected results are those of 95_test_vectors.md (named in each docstring) or hand calculation from
the rules, the smoke test of the well-formedness checks, and one witness for the premises of each statement that has any. -/

namespace Sys2Proof.Tests

open Sys2Proof Sys2Proof.Machine Sys2Proof.Safety

/-! ### Helpers -/

/-- A Running state at cursor 0 with the given array and stream of words, in the straps given. -/
def stateWith (straps : Config.Straps) (mem : Memory) (words : List Word) : State :=
  { State.resetWith straps (streamOf words) with mem := mem }

def rawSigned : Config.Straps := Config.defaultStraps
def shiftedSigned : Config.Straps := { writeSrcMode := .shifted, immSigned := true }
def rawUnsigned : Config.Straps := { writeSrcMode := .raw, immSigned := false }

/-- The cell after one step. -/
def cellAfter (s : State) (a : Nat) : Int := (stepOrStay s).mem.get a

/-- What one step leaves in the fault record. -/
def recordAfter (s : State) : Status × Option EngineFault × Nat × Nat :=
  ((stepOrStay s).status, (stepOrStay s).faultKind, (stepOrStay s).faultIndex, (stepOrStay s).pc)

/-! ### Decoding: words written out from the encodings of R51 and R57 -/

/-- S1: `0001` B = 0, C = 5. -/
theorem test_decode_load : decodeTableWord 64 0x1000000000000005 = some (.load 0#28 5#32) := by decide
/-- S4: `1100` B = 2, C = 0. -/
theorem test_decode_read : decodeTableWord 64 0xC000000200000000 = some (.read 2#28 0#32) := by decide
/-- S8: `1101` B = 4, C = 4. -/
theorem test_decode_abs : decodeTableWord 64 0xD000000400000004 = some (.abs 4#28 4#32) := by decide
/-- S8: `1111` B = 3, C' = 15, D = 63. -/
theorem test_decode_write : decodeTableWord 64 0xF0000003000003FF = some (.write 3#28 15#26 63#6) := by decide
/-- V-DEC: opcode 14 is illegal. -/
theorem test_decode_illegal : decodeTableWord 64 0xE0000000000003FF = none := by decide
/-- V-DEC: the bytes of `0x100003FF7FFFFFFF` in stream order. -/
theorem test_decode_bytes :
    splitWord [0xFF#8, 0xFF#8, 0xFF#8, 0x7F#8, 0xFF#8, 0x03#8, 0x00#8, 0x10#8] = some (0x100003FF7FFFFFFF#64, []) := by
  decide
/-- V-DEC: the outputs for an illegal word are still the slices. -/
theorem test_decoder_outputs :
    decoder 0x0FFFFFFFFFFFFFFF#64 =
      { op := .illegal, opcode := 0#4, b := 268435455#28, c := 4294967295#32, cp := 67108863#26, d := 63#6 } := by decide
/-- S8: `LOAD 1023 2147483647`, `READ 2 0`, `ABS 4 4`, `WRITE 3 7`. -/
theorem test_encode :
    encode (.load 1023#28 2147483647#32) = 0x100003FF7FFFFFFF#64 ∧ encode (.read 2#28 0#32) = 0xC000000200000000#64 ∧
    encode (.abs 4#28 4#32) = 0xD000000400000004#64 ∧ encode (.write 3#28 7#26 0#6) = 0xF0000003000001C0#64 := by decide

/-! ### Well-formedness -/

/-- No field value is ill-formed: the extreme values of each field are legal encodings (R59). -/
theorem test_wellFormed_extremes :
    (Instr.load (BitVec.allOnes 28) (BitVec.allOnes 32)).wellFormed = true ∧
    (Instr.write (BitVec.allOnes 28) (BitVec.allOnes 26) (BitVec.allOnes 6)).wellFormed = true := by decide
/-- Operands that do not fit their field are refused by the check: one for each comparison and each operand. -/
theorem test_fits_refuses :
    fitsField 28 (-1) = false ∧ fitsField 28 268435456 = false ∧
    asmFits (.load 268435456 0) = false ∧ asmFits (.load 0 4294967296) = false ∧
    asmFits (.read (-1) 0) = false ∧ asmFits (.read 0 (-1)) = false ∧
    asmFits (.abs 268435456 0) = false ∧ asmFits (.abs 0 4294967296) = false ∧
    asmFits (.write 268435456 0 none) = false ∧ asmFits (.write 0 67108864 none) = false ∧
    asmFits (.write 0 0 (some 64)) = false := by decide
/-- The greatest operands that fit. -/
theorem test_fits_accepts :
    asmFits (.load 268435455 4294967295) = true ∧ asmFits (.write 268435455 67108863 (some 63)) = true := by decide

/-! ### One step of each instruction -/

/-- V-LOAD 3: the most negative immediate, under each reading. -/
theorem test_load_sign :
    cellAfter (stateWith rawSigned [] [0x1000000580000000#64]) 5 = -2147483648 ∧
    cellAfter (stateWith rawUnsigned [] [0x1000000580000000#64]) 5 = 2147483648 := by decide
/-- V-LOAD 5: `LOAD 1024 0` faults and does not write cell 0. -/
theorem test_load_out_of_range :
    recordAfter (stateWith rawSigned [] [0x1000040000000000#64]) = (.failed, some .addressOutOfRange, 0, 0) := by decide
/-- V-READ 4: a negative value of the last cell is copied as it is. -/
theorem test_read_last_cell :
    cellAfter (stateWith rawSigned [(1023, -9)] [0xC0000000000003FF#64]) 0 = -9 := by decide
/-- V-READ 5: `READ 0 1024` faults and cell 0 keeps its value. -/
theorem test_read_out_of_range :
    recordAfter (stateWith rawSigned [(0, 5)] [0xC000000000000400#64]) = (.failed, some .addressOutOfRange, 0, 0) ∧
    cellAfter (stateWith rawSigned [(0, 5)] [0xC000000000000400#64]) 0 = 5 := by decide
/-- V-ABS 5: the absolute value of -2^31 is exact. -/
theorem test_abs_most_negative :
    cellAfter (stateWith rawSigned [(5, -2147483648)] [0xD000000600000005#64]) 6 = 2147483648 := by decide
/-- V-ABS 4: in place, the source is also the destination. -/
theorem test_abs_in_place :
    stepOrStay (stateWith rawSigned [(4, -8)] [0xD000000400000004#64]) =
      { stateWith rawSigned [(4, 8)] [0xD000000400000004#64] with pc := 8 } := by decide
/-- V-WRITE 2: `WRITE 3 1 2` in both modes. -/
theorem test_write_both_modes :
    cellAfter (stateWith rawSigned [(1, 9), (3, 100), (66, 8)] [0xF000000300000042#64]) 102 = 8 ∧
    cellAfter (stateWith shiftedSigned [(1, 9), (3, 100), (66, 8)] [0xF000000300000042#64]) 102 = 9 := by decide
/-- V-WRITE 9 and 10: a negative base faults only where the sum is out of range. -/
theorem test_write_negative_base :
    recordAfter (stateWith rawSigned [(2, -1)] [0xF000000200000000#64]) = (.failed, some .addressOutOfRange, 0, 0) ∧
    cellAfter (stateWith rawSigned [(1, 3), (2, -1)] [0xF000000200000001#64]) 0 = 3 := by decide

/-! ### The step, the run and the host -/

/-- V-STEP 1: the empty stream halts at once. -/
theorem test_step_empty : recordAfter State.reset = (.halted, none, 0, 0) := by decide
/-- V-STEP 3, its second step: a tail of three bytes after a whole word. -/
theorem test_step_truncated :
    recordAfter { State.resetWith rawSigned [5, 0, 0, 0, 0, 0, 0, 0x10, 1, 2, 3] with pc := 8 } =
      (.failed, some .truncatedStream, 1, 8) := by decide
/-- V-STEP 5: the whole word's fault wins over the tail. -/
theorem test_step_fault_before_tail :
    recordAfter (State.resetWith rawSigned [0, 4, 0, 0, 0, 0, 0, 0xC0, 0]) =
      (.failed, some .addressOutOfRange, 0, 0) := by decide
/-- V-STEP 7: the all-zero word. -/
theorem test_step_unknown_opcode :
    recordAfter (State.resetWith rawSigned [0, 0, 0, 0, 0, 0, 0, 0]) = (.failed, some .unknownOpcode, 0, 0) := by decide
/-- From reset the next step fetches and runs the word placed. -/
theorem test_withFetchWord :
    stepOrStay (State.reset.withFetchWord 64 0x1000000100000007) =
      { State.resetWith rawSigned [7, 0, 0, 0, 1, 0, 0, 0x10] with mem := [(1, 7)], pc := 8 } := by decide
/-- S3: `LOAD 0 -3`, `ABS 1 0`, run to its end: the snapshot of [0, 2). -/
theorem test_run_example3 :
    snapshot (runToEnd (State.resetWith rawSigned (streamOf [0x10000000FFFFFFFD#64, 0xD000000100000000#64]))) 0 2 =
      .data [(0, -3), (1, 3)] := by decide
/-- S5: the legality of ranges. -/
theorem test_snapshot_ranges :
    snapshot (halt State.reset) 5 5 = .data [] ∧ snapshot (halt State.reset) 1024 1024 = .data [] ∧
    snapshot (halt State.reset) 3 2 = .rangeError ∧ snapshot (halt State.reset) 0 1025 = .rangeError ∧
    snapshot (halt State.reset) 1023 1024 = .data [(1023, 0)] := by decide
/-- R149: the record of `memory[0] = -3`. -/
theorem test_result_record :
    resultRecord (0, -3) = (['m', 'e', 'm', 'o', 'r', 'y', '[', '0', ']'], ['-', '3']) := by decide
/-- R18, R20, R120: the codes of the register fields. -/
theorem test_codes :
    statusCode .failed = 2#2 ∧ faultCode (some .truncatedStream) = 3#2 ∧ writeSrcModeCode .shifted = 1#1 ∧
    immSignedCode true = 1#1 := by decide

/-! ### The assembler -/

/-- V-ASM: `LOAD 0 -3`, `WRITE 3 7`, `WRITE 3 0 64` with D truncated, `LOAD 268435456 1` with B truncated. -/
theorem test_pack :
    packWord (.load 0 (-3)) = 0x10000000FFFFFFFD#64 ∧ packWord (.write 3 7 none) = 0xF0000003000001C0#64 ∧
    packWord (.write 3 0 (some 64)) = 0xF000000300000000#64 ∧ packWord (.load 268435456 1) = 0x1000000000000001#64 := by
  decide
/-- V-ASM: `  LOAD   0    5  ` is `LOAD 0 5`. -/
theorem test_parse_spaces :
    (parseLine [' ', ' ', 'L', 'O', 'A', 'D', ' ', ' ', '0', '\t', ' ', '5', ' ']).toOption =
      some (some (.load 0 5)) := by decide
/-- V-ASM: `FOO 1` is skipped. -/
theorem test_parse_short : (parseLine ['F', 'O', 'O', ' ', '1']).toOption = some none := by decide
/-- The error of a line, where it has one. -/
def errorOf (line : List Char) : Option AsmErrorKind :=
  match parseLine line with
  | .error e => some e
  | .ok _ => none
/-- V-ASM: `FOO 1 2`, `load 0 5`, `LOAD 0 x`, `LOAD 0 5 6`. -/
theorem test_parse_errors :
    errorOf ['F', 'O', 'O', ' ', '1', ' ', '2'] = some .unknownCommand ∧
    errorOf ['l', 'o', 'a', 'd', ' ', '0', ' ', '5'] = some .unknownCommand ∧
    errorOf ['L', 'O', 'A', 'D', ' ', '0', ' ', 'x'] = some .malformedLine ∧
    errorOf ['L', 'O', 'A', 'D', ' ', '0', ' ', '5', ' ', '6'] = some .malformedLine := by decide
/-- V-ASM: the log record of `WRITE 3 7`. -/
theorem test_log_write :
    logRecord (.write 3 7 none) = { command := .write, a := 15, b := 3, c := 7, d := some 0 } := by decide
/-- V-ASM: the log of `LOAD 0 -3`, with the field names of R75 and no D. -/
theorem test_log_names :
    logFields (logRecord (.load 0 (-3))) =
      [(['c', 'o', 'm', 'm', 'a', 'n', 'd'], .text ['L', 'O', 'A', 'D']), (['A'], .number 1), (['B'], .number 0),
        (['C'], .number (-3))] := by decide
/-- The Unicode Standard's examples of UTF-8: U+004D, U+0430, U+4E8C, U+10302. -/
theorem test_utf8_decode :
    (decodeUtf8 [0x4D, 0xD0, 0xB0, 0xE4, 0xBA, 0x8C, 0xF0, 0x90, 0x8C, 0x82]).map (fun cs => cs.map Char.toNat) =
      some [0x4D, 0x430, 0x4E8C, 0x10302] := rfl
/-- The Unicode Standard's ill-formed bytes: a longer form than needed, a surrogate, a code point too great, a byte that
continues nothing, a character cut short. -/
theorem test_utf8_refused :
    decodeUtf8 [0xC0, 0x80] = none ∧ decodeUtf8 [0xED, 0xA0, 0x80] = none ∧ decodeUtf8 [0xF4, 0x90, 0x80, 0x80] = none ∧
    decodeUtf8 [0x80] = none ∧ decodeUtf8 [0xE4, 0xBA] = none := ⟨rfl, rfl, rfl, rfl, rfl⟩
/-- V-ASM: `WRITE 3 7` from its bytes. -/
theorem test_source :
    (assembleSource [0x57, 0x52, 0x49, 0x54, 0x45, 0x20, 0x33, 0x20, 0x37]).toOption.map Assembly.words =
      some [0xF0000003000001C0#64] := by decide

end Sys2Proof.Tests
end

