-- ==== Sys2Proof/Tests/Witnesses0.lean ====
section
/-! SUPPORT. For each statement with premises, a concrete state and operands that meet all of them together; where a
statement has several clauses, one for each, at the boundary of its range. A step's next state is named by `stepOrStay`. -/

namespace Sys2Proof.Tests

open Sys2Proof Sys2Proof.Machine Sys2Proof.Safety

/-- `LOAD 0 5` then three stray bytes (V-STEP 3). -/
def tailStream : List Byte := [5, 0, 0, 0, 0, 0, 0, 0x10, 1, 2, 3]
/-- The run of that stream. -/
def tailRun : State := State.resetWith rawSigned tailStream
/-- One word that loads 5 into cell 0. -/
def loadRun : State := stateWith rawSigned [] [0x1000000000000005#64]
/-- An illegal word after a whole one (P4, its first two words). -/
def illegalRun : State := stateWith rawSigned [] [0x1000000000000001#64, 0x2000000000000000#64]
/-- `READ 0 1024` (V-READ 5). -/
def outOfRangeRun : State := stateWith rawSigned [(0, 5)] [0xC000000000000400#64]
/-- A pointer run: `mem[3] = 1000`, source cells 23 and 0 (V-WRITE 6 and 7). -/
def pointerState (straps : Config.Straps) : State := stateWith straps [(3, 1000), (23, 4)] []
/-- The text `LOAD 0 5`. -/
def loadText : List Char := ['L', 'O', 'A', 'D', ' ', '0', ' ', '5']

/-- The step from a Running state answers the state `stepOrStay` names. -/
theorem next_of_loadRun : step loadRun = .next (stepOrStay loadRun) := rfl
theorem next_of_illegalRun :
    step (stepOrStay illegalRun) = .next (stepOrStay (stepOrStay illegalRun)) := rfl
theorem next_of_outOfRangeRun : step outOfRangeRun = .next (stepOrStay outOfRangeRun) := rfl
theorem next_of_tail : step (stepOrStay tailRun) = .next (stepOrStay (stepOrStay tailRun)) := rfl
theorem next_of_reset : step State.reset = .next (halt State.reset) := rfl

theorem witness_WriteFieldSplit :
    (decoder 0x1000000000000005#64).op = .load ∧ (decoder 0xC000000200000000#64).op = .read ∧
    (decoder 0xD000000400000004#64).op = .abs ∧ (decoder 0xF000000300000042#64).op = .write := by decide

theorem witness_IllegalOpcodeFaults :
    (stepOrStay illegalRun).status = .running ∧ fetch (stepOrStay illegalRun) = .word 0x2000000000000000#64 ∧
    (decoder 0x2000000000000000#64).opcode.toNat ∈ [0, 2, 3, 4, 5, 6, 7, 8, 9, 10, 11, 14] ∧
    (decoder 0x0FFFFFFFFFFFFFFF#64).opcode.toNat ∈ [0, 2, 3, 4, 5, 6, 7, 8, 9, 10, 11, 14] ∧
    (decoder 0xE000000000000000#64).opcode.toNat ∈ [0, 2, 3, 4, 5, 6, 7, 8, 9, 10, 11, 14] ∧
    fetch (stateWith rawSigned [] [0xFFFFFFFFFFFFFFFF#64]) = .word 0xFFFFFFFFFFFFFFFF#64 := by decide

theorem witness_DecodeEncodeAgree : (Instr.write 3#28 15#26 63#6).wellFormed = true := by decide

theorem witness_EncodeDecodeAgree : decodeWord 0xF0000003000003FF#64 = .ok (.write 3#28 15#26 63#6) := rfl

theorem witness_FetchIsLittleEndian :
    (0 + 8 ≤ tailStream.length) ∧ loadRun.pc + 8 ≤ loadRun.stream.length ∧
    fetch (stateWith rawSigned [] [0xF000000300000042#64]) = .word 0xF000000300000042#64 ∧
    decodeWord 0xF000000300000042#64 = .ok (.write 3#28 1#26 2#6) := ⟨by decide, by decide, by decide, rfl⟩

theorem witness_StoresUnseenByFetch : step loadRun = .next (stepOrStay loadRun) := next_of_loadRun

theorem witness_StepRunsDecodedInstruction :
    loadRun.status = .running ∧ decode (loadRun.stream.drop loadRun.pc) = .ok (.load 0#28 5#32, []) ∧
    (Instr.load 0#28 5#32).wellFormed = true := ⟨rfl, rfl, rfl⟩

theorem witness_HaltAtStreamEnd :
    State.reset.status = .running ∧ State.reset.pc = State.reset.stream.length ∧
    step State.reset = .next (halt State.reset) ∧ (halt State.reset).status = .halted := ⟨rfl, rfl, rfl, rfl⟩

/-- Tails of one and of seven bytes; and for the two sides of the run's clause a run with and one without a tail. -/
theorem witness_TruncatedTailFaults :
    (State.resetWith rawSigned [1]).pc < 1 ∧ 1 < (State.resetWith rawSigned [1]).pc + 8 ∧
    (State.resetWith rawSigned [1, 2, 3, 4, 5, 6, 7]).pc < 7 ∧ 7 < (State.resetWith rawSigned [1, 2, 3, 4, 5, 6, 7]).pc + 8 ∧
    launch rawSigned tailStream = .ok tailRun ∧ (runToEnd tailRun).faultKind = some .truncatedStream ∧
    (runToEnd loadRun).faultKind = none := ⟨by decide, by decide, by decide, by decide, rfl, by decide, by decide⟩

theorem witness_CursorAdvancesByEight :
    loadRun.status = .running ∧ (stepOrStay loadRun).status = .running ∧
    outOfRangeRun.status = .running ∧ (stepOrStay outOfRangeRun).status ≠ .running := by decide

theorem witness_TerminalStatesTakeNoStep :
    (halt State.reset).status ≠ .running ∧ (raiseFault State.reset .unknownOpcode).status = .failed := by decide

theorem witness_StatusTransitions :
    step loadRun = .next (stepOrStay loadRun) ∧ (halt State.reset).status ≠ .running := ⟨rfl, by decide⟩

theorem witness_PlacedWordRunsNext : decodeTableWord 64 0xF000000300000042 = some (.write 3#28 1#26 2#6) := by decide

theorem witness_FaultEntryChangesRecordOnly :
    step outOfRangeRun = .next (stepOrStay outOfRangeRun) ∧ (stepOrStay outOfRangeRun).status = .failed :=
  ⟨rfl, by decide⟩

/-- One failing step for each of the three kinds. -/
theorem witness_FaultKindsExclude :
    (step (stepOrStay tailRun) = .next (stepOrStay (stepOrStay tailRun)) ∧
      (stepOrStay (stepOrStay tailRun)).status = .failed ∧ fetch (stepOrStay tailRun) = .partialWord 3) ∧
    (step (stepOrStay illegalRun) = .next (stepOrStay (stepOrStay illegalRun)) ∧
      (stepOrStay (stepOrStay illegalRun)).status = .failed ∧
      fetch (stepOrStay illegalRun) = .word 0x2000000000000000#64 ∧ (decoder 0x2000000000000000#64).op = .illegal) ∧
    (step outOfRangeRun = .next (stepOrStay outOfRangeRun) ∧ (stepOrStay outOfRangeRun).status = .failed ∧
      fetch outOfRangeRun = .word 0xC000000000000400#64 ∧ (decoder 0xC000000000000400#64).op ≠ .illegal) :=
  ⟨⟨rfl, by decide, by decide⟩, ⟨rfl, by decide, by decide, by decide⟩, ⟨rfl, by decide, by decide, by decide⟩⟩

theorem witness_FaultRecordOfRun :
    launch rawSigned tailStream = .ok tailRun ∧ (runSteps 1 tailRun).status ≠ .failed ∧
    (runSteps 2 tailRun).status = .failed := ⟨rfl, by decide, by decide⟩

theorem witness_LoadFaultsExactly :
    loadRun.status = .running ∧ 1024 ≤ (1024#28).toNat ∧ (1023#28).toNat < 1024 := by decide

theorem witness_ReadFaultsExactly :
    loadRun.status = .running ∧ 1024 ≤ (1024#28).toNat ∧ 1024 ≤ (1024#32).toNat ∧
    ((1023#28).toNat < 1024 ∧ (1023#32).toNat < 1024) ∧ (0x80000000#32).toInt < 0 := by decide

theorem witness_AbsFaultsExactly :
    loadRun.status = .running ∧ 1024 ≤ (1024#28).toNat ∧ 1024 ≤ (4294967295#32).toNat ∧
    ((1023#28).toNat < 1024 ∧ (1023#32).toNat < 1024) := by decide

/-- The four raising conditions one by one (V-WRITE 14, 9, 7, 13), and the greatest target and source that do not raise. -/
theorem witness_WriteFaultsExactly :
    (pointerState rawSigned).status = .running ∧ 1024 ≤ (1024#28).toNat ∧
    (stateWith rawSigned [(2, -1)] []).mem.get 2 + ((0#6).toNat : Int) < 0 ∧
    1023 < (pointerState rawSigned).mem.get 3 + ((24#6).toNat : Int) ∧
    1024 ≤ 64 * (16#26).toNat + (0#6).toNat ∧
    (pointerState rawSigned).mem.get 3 + ((23#6).toNat : Int) = 1023 ∧ 64 * (15#26).toNat + (63#6).toNat = 1023 := by
  decide

theorem witness_LoadStoresImmediate :
    (1023#28).toNat ≤ 1023 ∧ loadRun.straps.immSigned = true ∧
    (stateWith rawUnsigned [] []).straps.immSigned = false := by decide

theorem witness_ReadCopiesCell : (1023#28).toNat ≤ 1023 ∧ (1023#32).toNat ≤ 1023 := by decide

theorem witness_AbsStoresAbsoluteValue : (1023#28).toNat ≤ 1023 ∧ (1023#32).toNat ≤ 1023 := by decide

/-- Target 1023 in both modes, and target 0 through a negative pointer (V-WRITE 6 and 10). -/
theorem witness_WriteStoresThroughPointer :
    (3#28).toNat ≤ 1023 ∧ (pointerState rawSigned).mem.get 3 + ((23#6).toNat : Int) = 1023 ∧
    (pointerState rawSigned).straps.writeSrcMode = .raw ∧ (pointerState shiftedSigned).straps.writeSrcMode = .shifted ∧
    64 * (0#26).toNat + (23#6).toNat ≤ 1023 ∧ (1023#26).toNat ≤ 1023 ∧
    (stateWith rawSigned [(2, -1)] []).mem.get 2 + ((1#6).toNat : Int) = 0 := by decide

theorem witness_ExecFrame :
    exec (.load 0#28 5#32) loadRun = .next (stepOrStay loadRun) ∧
    writeAddress (.load 0#28 5#32) loadRun ≠ some ((1 : Nat) : Int) := ⟨rfl, by decide⟩

theorem witness_AssembledWriteSource : (15 < 2 ^ 26 ∧ 63 < 64) ∧ (16 < 2 ^ 26 ∧ 0 < 64) := by decide

theorem witness_ReadIntoItselfIsNoop :
    (stateWith rawSigned [(7, -4)] []).mem.wf = true ∧ (1023#28).toNat ≤ 1023 := by decide

theorem witness_AbsIsReadWhenUnsigned :
    (stateWith rawUnsigned [(5, 2147483648)] []).straps.immSigned = false ∧
    CellsInRange (stateWith rawUnsigned [(5, 2147483648)] []) := by
  refine ⟨rfl, fun a => ?_⟩
  show 0 ≤ Memory.get [(5, 2147483648)] a ∧ Memory.get [(5, 2147483648)] a ≤ 2 ^ 32 - 1
  rw [Memory.get_cons, Memory.get_nil]
  split <;> omega

/-- LOAD under the other source mode, and WRITE under the other reading of immediates. -/
theorem witness_StrapsMatterWhereStated :
    exec (.load 0#28 5#32) loadRun = .next (stepOrStay loadRun) ∧
    shiftedSigned.immSigned = loadRun.straps.immSigned ∧
    (∃ t, exec (.write 3#28 0#26 23#6) (pointerState rawSigned) = .next t) ∧
    rawUnsigned.writeSrcMode = (pointerState rawSigned).straps.writeSrcMode := ⟨rfl, rfl, ⟨_, rfl⟩, rfl⟩

/-- WRITE reads cells 3 and 23 here; another memory that agrees on those two. -/
theorem witness_UnreadCellsDoNotMatter :
    ∀ a ∈ cellsRead (.write 3#28 0#26 23#6) (pointerState rawSigned).straps, InRange a →
      Memory.get [(3, 1000), (8, 1), (23, 4)] a.toNat = (pointerState rawSigned).mem.get a.toNat := by decide

theorem witness_ArrayReadAfterWrite :
    (-1 : Int) < 0 ∧ 1023 < (1024 : Int) ∧ (0 ≤ (0 : Int) ∧ (0 : Int) ≤ 1023) ∧ (0 ≤ (1023 : Int) ∧ (1023 : Int) ≤ 1023) ∧
    (5 : Int) ≠ 1023 := by decide

theorem witness_CanonicalMemoriesEqual :
    Memory.wf [(0, 5), (1023, -1)] = true ∧ Memory.wf (Memory.set [(1023, -1)] 0 5) = true ∧
    ∀ a : Nat, a ≤ 1023 → Memory.get [(0, 5), (1023, -1)] a = Memory.get (Memory.set [(1023, -1)] 0 5) a :=
  ⟨by decide, by decide, fun _ _ => rfl⟩

/-- A step that writes and one that does not. -/
theorem witness_WriteEnableGovernsArray :
    step loadRun = .next (stepOrStay loadRun) ∧ (portsOf loadRun).we = true ∧
    step outOfRangeRun = .next (stepOrStay outOfRangeRun) ∧ (portsOf outOfRangeRun).we = false :=
  ⟨rfl, by decide, rfl, by decide⟩

/-- A state in the midst of a run, with a negative cell. -/
def midRun : State := { stateWith rawSigned [(0, -5)] [0x10000000FFFFFFFB#64, 0xD000000100000000#64] with pc := 8 }

theorem witness_EngineInvariantKept : EngineInv midRun ∧ step midRun = .next (stepOrStay midRun) := by
  refine ⟨⟨by decide, by decide, by decide, ⟨rfl, rfl⟩, fun a => ?_⟩, rfl⟩
  show -(2 ^ 31) ≤ Memory.get [(0, -5)] a ∧ Memory.get [(0, -5)] a ≤ 2 ^ 31
  rw [Memory.get_cons, Memory.get_nil]
  split <;> omega

theorem witness_EngineInvariantAtReset : launch rawSigned tailStream = .ok tailRun := rfl

theorem witness_CellValueRange :
    launch rawSigned tailStream = .ok tailRun ∧ rawSigned.immSigned = true ∧
    launch rawUnsigned tailStream = .ok (State.resetWith rawUnsigned tailStream) ∧ rawUnsigned.immSigned = false ∧
    33 ≤ 33 := ⟨rfl, rfl, rfl, rfl, by decide⟩

theorem witness_CursorWithinStream :
    launch rawSigned tailStream = .ok tailRun ∧ 2 ^ 64 ≤ (List.replicate (2 ^ 64) (0#8)).length :=
  ⟨rfl, by rw [List.length_replicate]⟩

/-- A run for each of the three outcomes. -/
theorem witness_RunTerminatesWithOutcome :
    launch rawSigned loadRun.stream = .ok loadRun ∧ (runToEnd loadRun).status = .halted ∧
    launch rawSigned illegalRun.stream = .ok illegalRun ∧ (runToEnd illegalRun).faultKind = some .unknownOpcode ∧
    launch rawSigned tailStream = .ok tailRun ∧ (runToEnd tailRun).faultKind = some .truncatedStream :=
  ⟨rfl, by decide, rfl, by decide, rfl, by decide⟩

theorem witness_RunIsFoldOfWords :
    ([1#8, 2#8, 3#8] : List Byte).length < 8 ∧
    launch rawSigned (streamOf [0x1000000000000005#64] ++ [1, 2, 3]) = .ok tailRun ∧
    ([0x1000000000000005#64] : List Word)[0]? = some 0x1000000000000005#64 ∧
    (runSteps 0 tailRun).status = .running := ⟨by decide, rfl, rfl, rfl⟩

theorem witness_MemoryIsolation :
    launch rawSigned tailStream = .ok tailRun ∧ (runSteps 1 tailRun).mem.get 0 ≠ 0 := ⟨rfl, by decide⟩

theorem witness_CellHoldsLatestWrite : launch rawSigned tailStream = .ok tailRun := rfl

theorem witness_ResetFromAnyState :
    tailStream.length < 2 ^ 64 ∧ (halt State.reset).status = .halted ∧
    (raiseFault State.reset .unknownOpcode).status = .failed := by decide

theorem witness_SnapshotRangeChecked : (halt State.reset).status = .halted := rfl

theorem witness_SnapshotGivesRange :
    (halt State.reset).status = .halted ∧ (0 ≤ 1024 ∧ 1024 ≤ 1024) ∧ (1024 ≤ 1024) ∧ State.reset.status = .running ∧
    (raiseFault State.reset .unknownOpcode).status = .failed := by decide

theorem witness_HostSeesEndOnly :
    State.reset.status = .running ∧ (halt State.reset).status = .halted ∧
    (raiseFault State.reset .unknownOpcode).status = .failed := by decide

theorem witness_AssembledOperandsRoundTrip :
    asmFits (.load 268435455 4294967295) = true ∧ asmFits (.read 0 0) = true ∧ asmFits (.abs 0 0) = true ∧
    asmFits (.write 268435455 67108863 (some 63)) = true := by decide

theorem witness_AssembledStreamRuns :
    ∃ x, assemble loadText = .ok x ∧ x.words = [0x1000000000000005#64] ∧
      launch rawSigned x.stream = .ok (State.resetWith rawSigned x.stream) := ⟨_, rfl, rfl, rfl⟩

/-- The text `FOO 1 2`. -/
def fooLine : List Char := ['F', 'O', 'O', ' ', '1', ' ', '2']

/-- The clauses one by one: a short line, an unknown command, operands that are no integer or too many (two and three are
WRITE's), a program without error, and one whose second line is in error. -/
theorem witness_EncoderErrorsAbortBatch :
    (tokens ['F', 'O', 'O', ' ', '1']).length < 3 ∧
    (tokens fooLine = ['F', 'O', 'O'] :: [['1'], ['2']] ∧
      ['F', 'O', 'O'] ∉ [mnemonicText .load, mnemonicText .read, mnemonicText .write, mnemonicText .abs]) ∧
    (tokens (loadText ++ ['x']) = mnemonicText .load :: [['0'], ['5', 'x']] ∧ operandOf ['5', 'x'] = none) ∧
    (tokens (loadText ++ [' ', '6']) = mnemonicText .load :: [['0'], ['5'], ['6']] ∧
      (if Mnemonic.load = .write then 3 else 2) < [['0'], ['5'], ['6']].length) ∧
    (tokens ['W', 'R', 'I', 'T', 'E', ' ', '1', ' ', '2', ' ', '3', ' ', '4'] =
      mnemonicText .write :: [['1'], ['2'], ['3'], ['4']] ∧
      (if Mnemonic.write = .write then 3 else 2) < [['1'], ['2'], ['3'], ['4']].length) ∧
    (∃ x, assemble loadText = .ok x) ∧
    assemble (loadText ++ '\n' :: fooLine) = .error { kind := .unknownCommand, line := 1 } :=
  ⟨by decide, ⟨by decide, by decide⟩, ⟨by decide, by decide⟩, ⟨by decide, by decide⟩, ⟨by decide, by decide⟩,
    ⟨_, rfl⟩, rfl⟩

theorem witness_LogRecordPerWord :
    ∃ x, assemble loadText = .ok x ∧ x.log[0]? = some { command := .load, a := 1, b := 0, c := 5, d := none } ∧
      x.words[0]? = some 0x1000000000000005#64 := ⟨_, rfl, rfl, rfl⟩

/-- One line of each form, and a line that is accepted. -/
theorem witness_AcceptedFormsParse :
    (operandOf ['3'] = some 3 ∧ operandOf ['-', '7'] = some (-7) ∧ operandOf ['0'] = some 0) ∧
    tokens ['L', 'O', 'A', 'D', ' ', '3', ' ', '-', '7'] = [['L', 'O', 'A', 'D'], ['3'], ['-', '7']] ∧
    tokens ['R', 'E', 'A', 'D', ' ', '3', ' ', '-', '7'] = [['R', 'E', 'A', 'D'], ['3'], ['-', '7']] ∧
    tokens ['A', 'B', 'S', ' ', '3', ' ', '-', '7'] = [['A', 'B', 'S'], ['3'], ['-', '7']] ∧
    tokens ['W', 'R', 'I', 'T', 'E', ' ', '3', ' ', '-', '7'] = [['W', 'R', 'I', 'T', 'E'], ['3'], ['-', '7']] ∧
    tokens ['W', 'R', 'I', 'T', 'E', ' ', '3', ' ', '-', '7', ' ', '0'] =
      [['W', 'R', 'I', 'T', 'E'], ['3'], ['-', '7'], ['0']] ∧
    parseLine loadText = .ok (some (.load 0 5)) :=
  ⟨by decide, by decide, by decide, by decide, by decide, by decide, rfl⟩

/-- The least and the greatest digit, leading zeros, and each sign. -/
theorem witness_OperandTokensAreDecimal :
    (∀ ch ∈ ['0', '0', '9'], '0'.toNat ≤ ch.toNat ∧ ch.toNat ≤ '9'.toNat) ∧ operandOf ['0', '0', '9'] = some 9 ∧
    operandOf ['+', '9'] = some 9 ∧ operandOf ['-', '9'] = some (-9) :=
  ⟨by simp only [List.forall_mem_cons]; exact ⟨by decide, by decide, by decide, by simp⟩, by decide, by decide, by decide⟩

theorem witness_TextSplitsIntoLinesAndTokens :
    '\n' ∉ loadText ∧ isBlank ' ' = true ∧ isBlank '\t' = true ∧ (['5', ','] : List Char) ≠ [] ∧
    ∀ ch ∈ ['5', ','], isBlank ch = false :=
  ⟨by decide, by decide, by decide, by simp,
    by simp only [List.forall_mem_cons]; exact ⟨by decide, by decide, by simp⟩⟩

/-- A source with a character of two bytes, the two outcomes of its text, and bytes that are the UTF-8 of no text. -/
theorem witness_SourceIsUtf8Text :
    (decodeUtf8 [0xC3, 0xA9] = some ['\u00e9']) ∧
    (∃ x, assemble loadText = .ok x) ∧ assemble fooLine = .error { kind := .unknownCommand, line := 0 } ∧
    ∀ text, encodeUtf8 text ≠ [0x80] := by
  refine ⟨by decide, ⟨_, rfl⟩, rfl, fun text => ?_⟩
  cases text with
  | nil => simp [encodeUtf8]
  | cons ch cs =>
    obtain ⟨x, rest, hx, hr⟩ := encodeUtf8Char_head ch
    simp only [encodeUtf8, List.flatMap_cons, hx, List.cons_append]
    intro h
    obtain rfl : x = 0x80 := (List.cons.inj h).1
    revert hr; decide

end Sys2Proof.Tests
end

/-! ## The memory family (20_memory.md)

What a step and a run do to the stream and to the array: rules about `stepOrStay` and `runSteps` from which the statements
of R45 and R47 follow. -/

namespace Sys2Proof.Proofs

open Sys2Proof Sys2Proof.Machine Sys2Proof.Safety

/-! ### Fetch and the instruction space -/

/-- Fetch reads the cursor and the stream alone (R30). -/
theorem fetch_congr {s t : State} (hpc : s.pc = t.pc) (hstream : s.stream = t.stream) : fetch s = fetch t := by
  simp only [fetch, hpc, hstream]

theorem step_stream {s t : State} (h : step s = .next t) : t.stream = s.stream := by
  obtain ⟨-, hcase⟩ := step_cases h
  obtain ⟨-, rfl⟩ | ⟨-, -, rfl⟩ | ⟨-, w, -, ⟨-, rfl⟩ | ⟨i, -, ⟨-, rfl⟩ | ⟨-, rfl⟩⟩⟩ := hcase
  · exact halt_stream s
  · exact raiseFault_stream s _
  · exact raiseFault_stream s _
  · exact advanceWith_stream s _
  · exact raiseFault_stream s _

/-- Settles O9: fetch reads no cell, and each way a step can end leaves the stream. -/
theorem storesUnseenByFetch : Obligations.StoresUnseenByFetch :=
  ⟨fun _ _ => fetch_congr rfl rfl, fun _ _ => step_stream⟩

/-! ### The array in a step and in a run -/

/-- A launched run starts in the state reset establishes (R140). -/
theorem launch_eq_resetWith {straps : Config.Straps} {stream : List Byte} {s : State}
    (h : launch straps stream = .ok s) : s = State.resetWith straps stream := by
  unfold launch at h
  split at h
  · exact (Except.ok.inj h).symm
  · cases h

theorem stepOrStay_of_next {s t : State} (h : step s = .next t) : stepOrStay s = t := by
  simp only [stepOrStay, h]

theorem stepOrStay_of_not_running {s : State} (h : s.status ≠ .running) : stepOrStay s = s := by
  cases hs : s.status with
  | running => exact absurd hs h
  | halted => simp only [stepOrStay, step, hs]
  | failed => simp only [stepOrStay, step, hs]

/-- A run of one step more takes that step last. -/
theorem runSteps_succ (n : Nat) (s : State) : runSteps (n + 1) s = stepOrStay (runSteps n s) := by
  induction n generalizing s with
  | zero => rfl
  | succ n ih => exact ih (stepOrStay s)

/-- The array keeps its value, unless the step completes an instruction, whose one write it then takes (R37). -/
theorem stepOrStay_mem_cases (s : State) :
    (stepOrStay s).mem = s.mem ∨
    ∃ w i, s.status = .running ∧ fetch s = .word w ∧ decodeWord w = .ok i ∧ Completes i s ∧
      stepOrStay s = advanceWith s (s.mem.set (writeOf i s).1 (writeOf i s).2) := by
  by_cases hs : s.status = .running
  · obtain ⟨t, ht⟩ := step_running hs
    rw [stepOrStay_of_next ht]
    obtain ⟨-, ⟨-, rfl⟩ | ⟨-, -, rfl⟩ | ⟨-, w, hf, ⟨-, rfl⟩ | ⟨i, hd, ⟨hc, rfl⟩ | ⟨-, rfl⟩⟩⟩⟩ := step_cases ht
    · exact .inl (halt_mem s)
    · exact .inl (raiseFault_mem s _)
    · exact .inl (raiseFault_mem s _)
    · exact .inr ⟨w, i, hs, hf, hd, hc, rfl⟩
    · exact .inl (raiseFault_mem s _)
  · exact .inl (by rw [stepOrStay_of_not_running hs])

/-- Step number `n` changes no cell but the one it wrote as a completed instruction. -/
theorem wroteAt_of_get_ne {s : State} {n a : Nat}
    (h : (runSteps (n + 1) s).mem.get a ≠ (runSteps n s).mem.get a) : WroteAt s n a := by
  have hrun := runSteps_succ n s
  obtain hmem | ⟨w, i, hs, hf, hd, hc, ht⟩ := stepOrStay_mem_cases (runSteps n s)
  · exact absurd (by rw [hrun, hmem]) h
  · rw [ht] at hrun
    have ha : a = (writeOf i (runSteps n s)).1 := by
      by_contra hne
      exact h (by rw [hrun, advanceWith_mem, Memory.get_set, if_neg hne])
    exact ⟨w, i, hs, hf, hd, by rw [hrun, advanceWith_status, hs], ha ▸ (writeAddress_of_completes hc).1⟩

/-- A cell that was 0 and is not 0 after `n` steps was written by one of them. -/
theorem exists_wroteAt_of_get_ne_zero {s : State} {n a : Nat} (h0 : s.mem.get a = 0)
    (h : (runSteps n s).mem.get a ≠ 0) : ∃ k, k < n ∧ WroteAt s k a := by
  induction n with
  | zero => exact absurd h0 h
  | succ n ih =>
    by_cases hn : (runSteps n s).mem.get a = 0
    · exact ⟨n, Nat.lt_succ_self n, wroteAt_of_get_ne (by rwa [hn])⟩
    · obtain ⟨k, hk, hw⟩ := ih hn
      exact ⟨k, Nat.lt_succ_of_lt hk, hw⟩

/-- The stream of the one instruction `LOAD 0 0`, which writes 0 to cell 0. -/
def loadZeroStream : List Byte := bytesOfWord 0x1000000000000000#64

theorem loadZeroStream_wroteAt : WroteAt (State.resetWith Config.defaultStraps loadZeroStream) 0 (0 : Nat) :=
  ⟨0x1000000000000000#64, .load 0#28 0#32, rfl, by decide, rfl, by decide, rfl⟩

/-- Settles O43, by induction on the number of steps; `LOAD 0 0` shows that the converse fails. -/
theorem memoryIsolation : Obligations.MemoryIsolation := by
  refine ⟨fun straps stream s a hl => ?_, ?_⟩
  · have h0 : s.mem.get a = 0 := by rw [launch_eq_resetWith hl, State.resetWith_mem, Memory.get_nil]
    exact ⟨h0, fun n => exists_wroteAt_of_get_ne_zero h0⟩
  · exact ⟨Config.defaultStraps, loadZeroStream, State.resetWith Config.defaultStraps loadZeroStream, 1, 0, rfl,
      ⟨0, Nat.one_pos, loadZeroStream_wroteAt⟩, by decide⟩

end Sys2Proof.Proofs

/-! ## The encoding family (30_encoding.md)

The decoder's outputs as slices and as arithmetic of the fields (R52 to R58), that it inverts the encoder's packing (R62),
and what a run over the stream of an assembled program can meet (R74). -/

namespace Sys2Proof.Proofs

open Sys2Proof Sys2Proof.Machine Sys2Proof.Safety

/-! ### The fields of a word -/

/-- Bits 59 to 42 are those of B above its low ten. -/
theorem decoder_b_toNat_div (w : Word) : (decoder w).b.toNat / 1024 = (w.extractLsb' 42 18).toNat := by
  rw [decoder_b_toNat, toNat_slice]
  omega

/-- B is out of range exactly when one of its bits above the low ten is set (R54). -/
theorem decoder_b_ge_iff (w : Word) : 1024 ≤ (decoder w).b.toNat ↔ w.extractLsb' 42 18 ≠ 0#18 := by
  rw [ne_eq, ← BitVec.toNat_inj, ← decoder_b_toNat_div, BitVec.toNat_ofNat]
  omega

/-- Settles O2: the slices are the decoder's own, and the byte sums are those of R33 divided. -/
theorem fieldsInStreamBytes : Obligations.FieldsInStreamBytes := by
  intro b0 b1 b2 b3 b4 b5 b6 b7 w out
  have hw : w.toNat = _ := wordOfBytes_toNat b0 b1 b2 b3 b4 b5 b6 b7
  have hop : out.opcode.toNat = w.toNat / 2 ^ 60 := decoder_opcode_toNat w
  have hb : out.b.toNat = w.toNat / 2 ^ 32 % 2 ^ 28 := decoder_b_toNat w
  have hc : out.c.toNat = w.toNat % 2 ^ 32 := decoder_c_toNat w
  refine ⟨rfl, by omega, by omega, rfl, by omega, by omega, Int.natCast_nonneg _, ?_, decoder_b_ge_iff w, rfl,
    out.c.isLt, by omega⟩
  rw [inRange_indexB]
  omega

theorem decoder_cp_eq_div (w : Word) : (decoder w).cp.toNat = (decoder w).c.toNat / 64 := by
  rw [decoder_cp_toNat, decoder_c_toNat]
  omega

theorem decoder_d_eq_mod (w : Word) : (decoder w).d.toNat = (decoder w).c.toNat % 64 := by
  rw [decoder_d_toNat, decoder_c_toNat]
  omega

/-- Settles O3: C' and D are the quotient and the remainder of C by 64, and the verdict alone says which fields
`decodeWord` takes. -/
theorem writeFieldSplit : Obligations.WriteFieldSplit := by
  intro w out
  have hcp : out.cp.toNat = out.c.toNat / 64 := decoder_cp_eq_div w
  have hd : out.d.toNat = out.c.toNat % 64 := decoder_d_eq_mod w
  refine ⟨rfl, hd, by omega, rfl, hcp, out.cp.isLt, by omega, ?_, ?_, ?_, ?_⟩
  all_goals
    intro (hop : (decoder w).op = _)
    rw [decodeWord, hop]

/-! ### Illegal opcodes -/

/-- The twelve opcodes without an instruction (R57). -/
theorem opOf_eq_illegal_iff (o : BitVec 4) :
    opOf o = .illegal ↔ o.toNat ∈ [0, 2, 3, 4, 5, 6, 7, 8, 9, 10, 11, 14] := by
  revert o
  decide

/-- The four opcodes with an instruction (R57). -/
theorem opOf_ne_illegal_iff (o : BitVec 4) : opOf o ≠ .illegal ↔ o.toNat ∈ [1, 12, 13, 15] := by
  revert o
  decide

theorem step_of_illegal {s : State} {w : Word} (hs : s.status = .running) (hf : fetch s = .word w)
    (hop : (decoder w).op = .illegal) : step s = .next (raiseFault s .unknownOpcode) := by
  simp only [step, hs, hf, decodeWord, hop]

theorem step_of_decoded {s : State} {w : Word} {i : Instr} (hs : s.status = .running) (hf : fetch s = .word w)
    (hd : decodeWord w = .ok i) : step s = exec i s := by
  simp only [step, hs, hf, hd]

theorem exec_of_not_completes {i : Instr} {s : State} (h : ¬ Completes i s) :
    exec i s = .next (raiseFault s .addressOutOfRange) := by
  obtain ⟨hc, -⟩ | ⟨-, he⟩ := exec_cases i s
  · exact absurd hc h
  · exact he

theorem decodeWord_allOnes :
    decodeWord 0xFFFFFFFFFFFFFFFF#64 = .ok (.write 0xFFFFFFF#28 0x3FFFFFF#26 0x3F#6) := rfl

/-- The pointer cell of the all-ones word does not exist. -/
theorem not_completes_allOnes (s : State) : ¬ Completes (.write 0xFFFFFFF#28 0x3FFFFFF#26 0x3F#6) s :=
  fun ⟨hb, _, _⟩ => absurd hb (by decide)

/-- Settles O5. -/
theorem illegalOpcodeFaults : Obligations.IllegalOpcodeFaults := by
  refine ⟨fun s w hs hf hop => ?_, rfl, rfl, fun s hs hf => ?_⟩
  · exact step_of_illegal hs hf ((opOf_eq_illegal_iff _).2 hop)
  · rw [step_of_decoded hs hf decodeWord_allOnes]
    exact exec_of_not_completes (not_completes_allOnes s)

/-! ### The decoder inverts the encoder -/

/-- The decoder on a word put together from an opcode, B and the low field (R51): each field comes back as it was. -/
theorem decoder_append (o : BitVec 4) (b : BitVec 28) (low : BitVec 32) :
    decoder (o ++ b ++ low) =
      { op := opOf o, opcode := o, b := b, c := low, cp := low.extractLsb' 6 26, d := low.extractLsb' 0 6 } := by
  have hw : (o ++ b ++ low).toNat = o.toNat * 2 ^ 60 + b.toNat * 2 ^ 32 + low.toNat := by
    simp only [toNat_append_add]
    omega
  have ho : (decoder (o ++ b ++ low)).opcode = o :=
    BitVec.eq_of_toNat_eq (by rw [decoder_opcode_toNat, hw]; omega)
  have hb : (decoder (o ++ b ++ low)).b = b :=
    BitVec.eq_of_toNat_eq (by rw [decoder_b_toNat, hw]; omega)
  have hc : (decoder (o ++ b ++ low)).c = low :=
    BitVec.eq_of_toNat_eq (by rw [decoder_c_toNat, hw]; omega)
  have hcp : (decoder (o ++ b ++ low)).cp = low.extractLsb' 6 26 :=
    BitVec.eq_of_toNat_eq (by rw [decoder_cp_eq_div, hc, toNat_slice]; omega)
  have hd : (decoder (o ++ b ++ low)).d = low.extractLsb' 0 6 :=
    BitVec.eq_of_toNat_eq (by rw [decoder_d_eq_mod, hc, toNat_slice]; omega)
  rw [DecoderOut.mk.injEq]
  exact ⟨congrArg opOf ho, ho, hb, hc, hcp, hd⟩

theorem rawField_slice_cp (cp : BitVec 26) (d : BitVec 6) : (rawField cp d).extractLsb' 6 26 = cp := by
  apply BitVec.eq_of_toNat_eq
  rw [toNat_slice, rawField_toNat]
  omega

theorem rawField_slice_d (cp : BitVec 26) (d : BitVec 6) : (rawField cp d).extractLsb' 0 6 = d := by
  apply BitVec.eq_of_toNat_eq
  rw [toNat_slice, rawField_toNat]
  omega

theorem decoder_encode_load (b : BitVec 28) (c : BitVec 32) : decoder (encode (.load b c)) =
    { op := .load, opcode := 1#4, b := b, c := c, cp := c.extractLsb' 6 26, d := c.extractLsb' 0 6 } :=
  decoder_append 1#4 b c

theorem decoder_encode_read (b : BitVec 28) (c : BitVec 32) : decoder (encode (.read b c)) =
    { op := .read, opcode := 12#4, b := b, c := c, cp := c.extractLsb' 6 26, d := c.extractLsb' 0 6 } :=
  decoder_append 12#4 b c

theorem decoder_encode_abs (b : BitVec 28) (c : BitVec 32) : decoder (encode (.abs b c)) =
    { op := .abs, opcode := 13#4, b := b, c := c, cp := c.extractLsb' 6 26, d := c.extractLsb' 0 6 } :=
  decoder_append 13#4 b c

theorem decoder_encode_write (b : BitVec 28) (cp : BitVec 26) (d : BitVec 6) : decoder (encode (.write b cp d)) =
    { op := .write, opcode := 15#4, b := b, c := rawField cp d, cp := cp, d := d } := by
  have h := decoder_append 15#4 b (rawField cp d)
  rwa [rawField_slice_cp, rawField_slice_d] at h

theorem decodeWord_encode (i : Instr) : decodeWord (encode i) = .ok i := by
  cases i with
  | load b c => rw [decodeWord, decoder_encode_load]
  | read b c => rw [decodeWord, decoder_encode_read]
  | abs b c => rw [decodeWord, decoder_encode_abs]
  | write b cp d => rw [decodeWord, decoder_encode_write]

/-! ### The packing of an assembler line -/

/-- The packing formula of R70 puts an opcode, B truncated to 28 bits and the low field side by side. -/
theorem packFields_eq_append (m : Mnemonic) (b : Int) {low : Int} {c : BitVec 32} (h : low.toNat = c.toNat) :
    packFields m b low = BitVec.ofNat 4 (mnemonicOpcode m) ++ BitVec.ofInt 28 b ++ c := by
  have hm : mnemonicOpcode m < 16 := by cases m <;> decide
  apply BitVec.eq_of_toNat_eq
  simp only [packFields, toNat_append_add, BitVec.toNat_ofNat, BitVec.toNat_ofInt, h]
  omega

theorem toNat_emod_eq_ofInt_toNat (c : Int) : (c % 2 ^ 32).toNat = (BitVec.ofInt 32 c).toNat := by
  rw [BitVec.toNat_ofInt]
  rfl

theorem writeLow_eq_rawField_toNat (c d : Int) :
    ((c % 2 ^ 26) * 64 + d % 64).toNat = (rawField (BitVec.ofInt 26 c) (BitVec.ofInt 6 d)).toNat := by
  simp only [rawField_toNat, BitVec.toNat_ofInt]
  omega

/-- The packed word is the encoding of the truncated operands (R70 to R72). -/
theorem packWord_eq_encode (a : AsmInstr) : packWord a = encode (asmInstrOf a) := by
  cases a with
  | load b c => exact packFields_eq_append .load b (toNat_emod_eq_ofInt_toNat c)
  | read b c => exact packFields_eq_append .read b (toNat_emod_eq_ofInt_toNat c)
  | abs b c => exact packFields_eq_append .abs b (toNat_emod_eq_ofInt_toNat c)
  | write b c d => exact packFields_eq_append .write b (writeLow_eq_rawField_toNat c (writtenD d))

theorem decodeWord_packWord (a : AsmInstr) : decodeWord (packWord a) = .ok (asmInstrOf a) := by
  rw [packWord_eq_encode, decodeWord_encode]

/-- Truncation keeps an operand that fits its field. -/
theorem ofInt_toNat_of_fitsField {n : Nat} {v : Int} (h : fitsField n v = true) :
    ((BitVec.ofInt n v).toNat : Int) = v := by
  obtain ⟨h0, hlt⟩ : 0 ≤ v ∧ v < 2 ^ n := by simpa [fitsField] using h
  have hmod : v % ((2 ^ n : Nat) : Int) = v := Int.emod_eq_of_lt h0 (by exact_mod_cast hlt)
  rw [BitVec.toNat_ofInt, hmod, Int.toNat_of_nonneg h0]

theorem ofInt_toNat_of_fits_bc {b c : Int} (h : (fitsField 28 b && fitsField 32 c) = true) :
    ((BitVec.ofInt 28 b).toNat : Int) = b ∧ ((BitVec.ofInt 32 c).toNat : Int) = c := by
  obtain ⟨hb, hc⟩ := (Bool.and_eq_true _ _).mp h
  exact ⟨ofInt_toNat_of_fitsField hb, ofInt_toNat_of_fitsField hc⟩

/-- Settles O51: the decoder inverts the encoder on the truncated operands, and truncation keeps those that fit. -/
theorem assembledOperandsRoundTrip : Obligations.AssembledOperandsRoundTrip := by
  refine ⟨decodeWord_packWord, fun a hfit => ?_⟩
  rw [packWord_eq_encode]
  cases a with
  | load b c =>
    rw [asmInstrOf, decoder_encode_load]
    exact ⟨rfl, ofInt_toNat_of_fits_bc hfit⟩
  | read b c =>
    rw [asmInstrOf, decoder_encode_read]
    exact ⟨rfl, ofInt_toNat_of_fits_bc hfit⟩
  | abs b c =>
    rw [asmInstrOf, decoder_encode_abs]
    exact ⟨rfl, ofInt_toNat_of_fits_bc hfit⟩
  | write b c d =>
    obtain ⟨hbc, hd⟩ := (Bool.and_eq_true _ _).mp hfit
    obtain ⟨hb, hc⟩ := (Bool.and_eq_true _ _).mp hbc
    have hc' := ofInt_toNat_of_fitsField hc
    have hd' := ofInt_toNat_of_fitsField hd
    rw [asmInstrOf, decoder_encode_write]
    exact ⟨rfl, ofInt_toNat_of_fitsField hb, hc', hd', by rw [rawField_toNat]; omega⟩

/-! ### The stream of a sequence of words -/

/-- Byte `i` of a word, least significant first (R74). -/
theorem bytesOfWord_getElem? (w : Word) {i : Nat} (hi : i < 8) :
    (bytesOfWord w)[i]? = some (w.extractLsb' (8 * i) 8) := by
  interval_cases i <;> rfl

/-- A slice of eight bits as a shift and a remainder. -/
theorem byteSlice_eq_ofNat (w : Word) (lo : Nat) :
    w.extractLsb' lo 8 = BitVec.ofNat 8 (w.toNat / 2 ^ lo % 256) := by
  apply BitVec.eq_of_toNat_eq
  rw [toNat_slice, BitVec.toNat_ofNat]
  exact (Nat.mod_mod _ _).symm

theorem streamOf_cons (w : Word) (ws : List Word) : streamOf (w :: ws) = bytesOfWord w ++ streamOf ws := rfl

theorem streamOf_length (ws : List Word) : (streamOf ws).length = 8 * ws.length := by
  induction ws with
  | nil => rfl
  | cons w ws ih =>
    rw [streamOf_cons, List.length_append, bytesOfWord_length, ih, List.length_cons]
    omega

/-- Dropping whole words' bytes drops the words. -/
theorem streamOf_drop (ws : List Word) (k : Nat) : (streamOf ws).drop (8 * k) = streamOf (ws.drop k) := by
  induction k generalizing ws with
  | zero => rfl
  | succ k ih =>
    cases ws with
    | nil => rw [List.drop_nil]; exact List.drop_nil
    | cons w ws => exact ih ws

/-- At the start of word number `k` fetch delivers that word (R33, R82). -/
theorem fetch_streamOf {s : State} {ws : List Word} {k : Nat} (hS : s.stream = streamOf ws) (hpc : s.pc = 8 * k)
    (hk : k < ws.length) : fetch s = .word ws[k] := by
  have hlen : s.pc ≠ s.stream.length := by
    rw [hS, hpc, streamOf_length]
    omega
  have hsplit : splitWord (s.stream.drop s.pc) = some (ws[k], streamOf (ws.drop (k + 1))) := by
    rw [hS, hpc, streamOf_drop, List.drop_eq_getElem_cons hk, streamOf_cons, splitWord_bytesOfWord]
  simp only [fetch, if_neg hlen, hsplit]

/-! ### Runs over a stream of legal words -/

/-- What every step that answers keeps, every run keeps. -/
theorem runSteps_induction {P : State → Prop} (hstep : ∀ s t, P s → step s = .next t → P t) {s : State} (h : P s)
    (n : Nat) : P (runSteps n s) := by
  induction n with
  | zero => exact h
  | succ n ih =>
    rw [runSteps_succ]
    by_cases hs : (runSteps n s).status = .running
    · obtain ⟨t, ht⟩ := step_running hs
      rw [stepOrStay_of_next ht]
      exact hstep _ t ih ht
    · rwa [stepOrStay_of_not_running hs]

/-- A state of a run over whole words: the cursor stands at the start of a word or at the end, and the fault record names
neither UnknownOpcode nor TruncatedStream. -/
structure OnWholeWords (ws : List Word) (s : State) : Prop where
  stream : s.stream = streamOf ws
  cursor : ∃ k, k ≤ ws.length ∧ s.pc = 8 * k
  known : s.faultKind ≠ some .unknownOpcode
  whole : s.faultKind ≠ some .truncatedStream

theorem onWholeWords_resetWith (straps : Config.Straps) (ws : List Word) :
    OnWholeWords ws (State.resetWith straps (streamOf ws)) where
  stream := rfl
  cursor := ⟨0, Nat.zero_le _, rfl⟩
  known := nofun
  whole := nofun

/-- Where all words are legal a step stays on whole words: fetch meets no tail, and the decoder no illegal opcode. -/
theorem onWholeWords_step {ws : List Word} (hlegal : ∀ w ∈ ws, (decoder w).op ≠ .illegal) {s t : State}
    (hs : OnWholeWords ws s) (h : step s = .next t) : OnWholeWords ws t := by
  obtain ⟨hS, ⟨k, hk, hpc⟩, hu, ht⟩ := hs
  have hlen : s.stream.length = 8 * ws.length := by rw [hS, streamOf_length]
  obtain ⟨-, ⟨-, rfl⟩ | ⟨hne, hlt, -⟩ | ⟨hge, w, hf, hword⟩⟩ := step_cases h
  · exact ⟨hS, ⟨k, hk, hpc⟩, hu, ht⟩
  · omega
  · have hk' : k < ws.length := by omega
    obtain ⟨hop, -⟩ | ⟨i, -, ⟨-, rfl⟩ | ⟨-, rfl⟩⟩ := hword
    · obtain rfl : ws[k] = w := Fetched.word.inj ((fetch_streamOf hS hpc hk').symm.trans hf)
      exact absurd hop (hlegal _ (List.getElem_mem hk'))
    · exact ⟨hS, ⟨k + 1, hk', by rw [advanceWith_pc]; omega⟩, hu, ht⟩
    · exact ⟨hS, ⟨k, hk, hpc⟩, nofun, nofun⟩

theorem packWord_op_ne_illegal (a : AsmInstr) : (decoder (packWord a)).op ≠ .illegal := by
  obtain ⟨i, -, -, hop⟩ | ⟨hd, -⟩ := decodeWord_cases (packWord a)
  · exact hop
  · rw [decodeWord_packWord] at hd
    cases hd

/-- Settles O52: the words are packed lines and so are legal, and every step over whole legal words stays on them. -/
theorem assembledStreamRuns : Obligations.AssembledStreamRuns := by
  intro text x hx
  obtain ⟨-, rfl⟩ := (assemble_ok_iff text x).1 hx
  have hlegal : ∀ w ∈ ((linesOf text).filterMap acceptedLine).map packWord, (decoder w).op ≠ .illegal :=
    List.forall_mem_map.2 fun a _ => packWord_op_ne_illegal a
  refine ⟨rfl, rfl, fun w i hi => ?_, ?_, fun w hw => ?_, fun straps s n hl => ?_⟩
  · rw [bytesOfWord_getElem? w hi, byteSlice_eq_ofNat]
  · rw [Assembly.stream, streamOf_length]
    exact Nat.mul_mod_right _ _
  · exact (opOf_ne_illegal_iff _).1 (hlegal w hw)
  · rw [launch_eq_resetWith hl]
    have hrun := runSteps_induction (fun _ _ => onWholeWords_step hlegal) (onWholeWords_resetWith straps _) n
    exact ⟨hrun.known, hrun.whole⟩

end Sys2Proof.Proofs

/-! ## The step family (40_step_and_dispatch.md)

How a step ends (R81, R84), and that there is none once the run has ended (R86). -/

namespace Sys2Proof.Proofs

open Sys2Proof Sys2Proof.Machine Sys2Proof.Safety

/-! ### How a step ends -/

/-- The three forms of a next state: the halt at the end of the stream, the entry of a fault, the completed instruction. -/
theorem step_ending {s t : State} (h : step s = .next t) :
    (s.pc = s.stream.length ∧ t = halt s) ∨ (∃ k, t = raiseFault s k) ∨ ∃ m, t = advanceWith s m := by
  obtain ⟨-, hend | ⟨-, -, ht⟩ | ⟨-, w, -, ⟨-, ht⟩ | ⟨i, -, ⟨-, ht⟩ | ⟨-, ht⟩⟩⟩⟩ := step_cases h
  · exact .inl hend
  · exact .inr (.inl ⟨_, ht⟩)
  · exact .inr (.inl ⟨_, ht⟩)
  · exact .inr (.inr ⟨_, ht⟩)
  · exact .inr (.inl ⟨_, ht⟩)

theorem fetch_at_end {s : State} (hpc : s.pc = s.stream.length) : fetch s = .endOfStream := by
  rw [fetch, if_pos hpc]

theorem step_at_end {s : State} (hs : s.status = .running) (hpc : s.pc = s.stream.length) :
    step s = .next (halt s) := by
  simp only [step, hs, fetch_at_end hpc]

theorem status_running_of_step {s t : State} (h : step s = .next t) : s.status = .running :=
  (step_cases h).1

/-- Only the halt ends in Halted: a fault ends in Failed, and a completed instruction keeps Running. -/
theorem pc_at_end_of_step_halted {s t : State} (h : step s = .next t) (ht : t.status = .halted) :
    s.pc = s.stream.length := by
  obtain ⟨hpc, -⟩ | ⟨k, rfl⟩ | ⟨m, rfl⟩ := step_ending h
  · exact hpc
  · rw [raiseFault_status] at ht
    cases ht
  · rw [advanceWith_status, status_running_of_step h] at ht
    cases ht

/-- Outside Running there is no step (R86). -/
theorem step_ne_next_of_not_running {s : State} (hs : s.status ≠ .running) (t : State) : step s ≠ .next t :=
  fun h => hs (status_running_of_step h)

/-- Settles O11: the empty stream is exhausted at reset, and after the halt there is no step. -/
theorem haltAtStreamEnd : Obligations.HaltAtStreamEnd :=
  ⟨fun _ hs hpc => ⟨fetch_at_end hpc, step_at_end hs hpc⟩, fun _ _ => pc_at_end_of_step_halted,
    fun _ => ⟨step_at_end rfl rfl, step_ne_next_of_not_running nofun⟩⟩

/-- Settles O13, by the three forms of a next state, of which the completed instruction alone stays in Running. -/
theorem cursorAdvancesByEight : Obligations.CursorAdvancesByEight := by
  intro s hs
  obtain ⟨t, h⟩ := step_running hs
  refine ⟨t, h, ?_⟩
  obtain ⟨-, rfl⟩ | ⟨k, rfl⟩ | ⟨m, rfl⟩ := step_ending h
  · exact ⟨nofun, fun _ => halt_pc s⟩
  · exact ⟨nofun, fun _ => raiseFault_pc s k⟩
  · exact ⟨fun _ => advanceWith_pc s m, fun hne => absurd hs hne⟩

/-! ### After the end of a run -/

theorem runSteps_of_not_running {s : State} (hs : s.status ≠ .running) (n : Nat) : runSteps n s = s := by
  induction n with
  | zero => rfl
  | succ n ih => rw [runSteps_succ, ih, stepOrStay_of_not_running hs]

/-- Settles O14: a run from a state that takes no step stays there, so one from Failed ends in Failed. -/
theorem terminalStatesTakeNoStep : Obligations.TerminalStatesTakeNoStep := by
  refine fun s => ⟨fun hs => ⟨step_ne_next_of_not_running hs, runSteps_of_not_running hs⟩, fun hfailed hwell => ?_⟩
  have hs : s.status ≠ .running := by rw [hfailed]; nofun
  rw [EndsWell, runToEnd, runSteps_of_not_running hs, hfailed] at hwell
  cases hwell

end Sys2Proof.Proofs

/-! ## The READ family (42_read.md)

When READ raises (R96). -/

namespace Sys2Proof.Proofs

open Sys2Proof Sys2Proof.Machine Sys2Proof.Safety

theorem exec_of_completes {i : Instr} {s : State} (h : Completes i s) :
    exec i s = .next (advanceWith s (s.mem.set (writeOf i s).1 (writeOf i s).2)) := by
  obtain ⟨-, he⟩ | ⟨hn, -⟩ := exec_cases i s
  · exact he
  · exact absurd h hn

/-- READ raises exactly when an operand is not below 1024 (R96). -/
theorem not_completes_read_iff (b : BitVec 28) (c : BitVec 32) (s : State) :
    ¬ Completes (.read b c) s ↔ 1024 ≤ b.toNat ∨ 1024 ≤ c.toNat := by
  simp only [Completes]
  omega

/-- A field C that is negative under a signed reading has its top bit set (R61). -/
theorem two_pow_31_le_of_toInt_neg {c : BitVec 32} (h : c.toInt < 0) : 2 ^ 31 ≤ c.toNat := by
  have := BitVec.toInt_neg_iff.1 h
  omega

/-- Settles O21: an index of 1024 or more raises, the completed instruction stays in Running, and a negative signed
reading of C is such an index. -/
theorem readFaultsExactly : Obligations.ReadFaultsExactly := by
  refine fun b c s hs => ⟨fun hout => ?_, fun ⟨hb, hc⟩ => ?_, fun hneg => ?_⟩
  · exact exec_of_not_completes ((not_completes_read_iff b c s).2 hout)
  · have hin : Completes (.read b c) s := ⟨Nat.le_of_lt_succ hb, Nat.le_of_lt_succ hc⟩
    exact ⟨_, exec_of_completes hin, hs⟩
  · have := two_pow_31_le_of_toInt_neg hneg
    omega

end Sys2Proof.Proofs

/-! ## Reset and hazards (70_reset_and_hazards.md)

What the snapshot port gives (R148). -/

namespace Sys2Proof.Proofs

open Sys2Proof Sys2Proof.Machine Sys2Proof.Safety

/-- The pairs (index, value) of the cells `[start, stop)`, ascending: the data of a legal snapshot, by
`snapshot_of_legalRange`. -/
def rangeCells (s : State) (start stop : Nat) : List (Nat × Int) :=
  (List.range' start (stop - start)).map fun i => (i, s.mem.get i)

@[simp] theorem length_rangeCells (s : State) (start stop : Nat) :
    (rangeCells s start stop).length = stop - start := by
  simp [rangeCells]

@[simp] theorem rangeCells_self (s : State) (start : Nat) : rangeCells s start start = [] := by
  simp [rangeCells]

theorem getElem?_rangeCells (s : State) {start stop i : Nat} (hi : i < stop - start) :
    (rangeCells s start stop)[i]? = some (start + i, s.mem.get (start + i)) := by
  simp [rangeCells, List.getElem?_range' hi]

/-- A legal request in Halted is answered with the range's cells. -/
theorem snapshot_of_legalRange {s : State} {start stop : Nat} (hs : s.status = .halted)
    (hr : LegalRange start stop) : snapshot s start stop = .data (rangeCells s start stop) := by
  simp only [snapshot, hs, if_pos hr, rangeCells]

/-- Outside Halted the port gives nothing, whatever the request. -/
theorem snapshot_of_not_halted {s : State} (hs : s.status ≠ .halted) (start stop : Nat) :
    snapshot s start stop = .nothing := by
  cases h : s.status with
  | halted => exact absurd h hs
  | running => simp only [snapshot, h]
  | failed => simp only [snapshot, h]

/-- Settles O48: the answer to a legal request is `rangeCells`, whose length and entries are those of the range; Failed
and Running are not Halted. -/
theorem snapshotGivesRange : Obligations.SnapshotGivesRange := by
  refine ⟨fun s start stop hs hle hstop => ?_, fun s hs => ?_, fun s start stop hs => ?_⟩
  · refine ⟨_, snapshot_of_legalRange hs ⟨hle, hstop⟩, length_rangeCells s start stop, ?_, ?_⟩
    · rintro rfl
      exact rangeCells_self s start
    · exact fun i hi => getElem?_rangeCells s hi
  · exact ⟨_, snapshot_of_legalRange hs ⟨Nat.zero_le _, le_rfl⟩, length_rangeCells s 0 1024⟩
  · have hne : s.status ≠ .halted := by
      obtain h | h := hs <;> rw [h] <;> nofun
    exact snapshot_of_not_halted hne start stop

end Sys2Proof.Proofs

/-! ## Words and their instructions (30_encoding.md)

That the decoder and the encoder invert each other on legal words (R56), and that the opcode alone selects the
instruction (R57). -/

namespace Sys2Proof.Proofs

open Sys2Proof Sys2Proof.Machine Sys2Proof.Safety

/-- Bytes whose first eight hold a legal word decode to that word's instruction. -/
theorem decode_of_splitWord {bytes rest : List Byte} {w : Word} {i : Instr} (hs : splitWord bytes = some (w, rest))
    (hd : decodeWord w = .ok i) : decode bytes = .ok (i, rest) := by
  simp only [decode, hs, hd]

/-- Settles O6: the encoding decodes as a word, and its bytes make that word again. -/
theorem decodeEncodeAgree : Obligations.DecodeEncodeAgree :=
  fun i _ => ⟨decodeWord_encode i, fun rest => decode_of_splitWord (splitWord_bytesOfWord _ rest) (decodeWord_encode i)⟩

/-! ### The opcode map -/

/-- The verdict is an instruction's exactly at that instruction's opcode (R57). -/
theorem opOf_eq_opOfInstr_iff (i : Instr) (o : BitVec 4) : opOf o = opOfInstr i ↔ o = opcodeOf i := by
  cases i <;> (revert o; simp only [opOfInstr, opcodeOf]; decide)

/-- Masking out all but the opcode field leaves the opcode in the top four bits. -/
theorem and_opcodeMask_toNat (w : Word) :
    (w &&& 0xF000000000000000#64).toNat = (decoder w).opcode.toNat * 2 ^ 60 := by
  have hmask : 0xF000000000000000#64 = BitVec.allOnes 64 <<< 60 := rfl
  rw [hmask, ← BitVec.shiftLeft_ushiftRight, BitVec.toNat_shiftLeft, BitVec.toNat_ushiftRight, Nat.shiftLeft_eq,
    Nat.shiftRight_eq_div_pow, decoder_opcode_toNat]
  omega

theorem and_opcodeMask_eq_iff (w : Word) {m : Word} {n : Nat} (hm : m.toNat = n * 2 ^ 60) :
    w &&& 0xF000000000000000#64 = m ↔ (decoder w).opcode.toNat = n := by
  rw [← BitVec.toNat_inj, and_opcodeMask_toNat, hm]
  omega

/-- The verdict by the opcode's value. -/
theorem decoder_op_eq_iff (w : Word) (i : Instr) :
    (decoder w).op = opOfInstr i ↔ (decoder w).opcode.toNat = (opcodeOf i).toNat := by
  rw [decoder_op, opOf_eq_opOfInstr_iff, BitVec.toNat_inj]

/-- The verdict by the match value `m` of the opcode's mask. -/
theorem decoder_op_eq_iff_masked (w : Word) (i : Instr) {m : Word} (hm : m.toNat = (opcodeOf i).toNat * 2 ^ 60) :
    (decoder w).op = opOfInstr i ↔ w &&& 0xF000000000000000#64 = m := by
  rw [decoder_op_eq_iff, and_opcodeMask_eq_iff w hm]

theorem decoder_op_eq_illegal_iff (w : Word) :
    (decoder w).op = .illegal ↔ (decoder w).opcode.toNat ∉ [1, 12, 13, 15] := by
  rw [decoder_op, ← opOf_ne_illegal_iff, not_not]

/-- Settles O4: each verdict by its instruction's opcode, as a value and under the mask. -/
theorem opcodeAloneSelects : Obligations.OpcodeAloneSelects := fun w =>
  ⟨decoder_op_eq_iff w (.load 0 0), decoder_op_eq_iff_masked w (.load 0 0) rfl,
    decoder_op_eq_iff w (.read 0 0), decoder_op_eq_iff_masked w (.read 0 0) rfl,
    decoder_op_eq_iff w (.abs 0 0), decoder_op_eq_iff_masked w (.abs 0 0) rfl,
    decoder_op_eq_iff w (.write 0 0 0), decoder_op_eq_iff_masked w (.write 0 0 0) rfl,
    decoder_op_eq_illegal_iff w⟩

/-! ### A legal word is the encoding of its instruction -/

theorem decoder_fields_append (w : Word) : (decoder w).opcode ++ (decoder w).b ++ (decoder w).c = w := by
  apply BitVec.eq_of_toNat_eq
  simp only [toNat_append_add, decoder_opcode_toNat, decoder_b_toNat, decoder_c_toNat]
  omega

theorem rawField_decoder (w : Word) : rawField (decoder w).cp (decoder w).d = (decoder w).c := by
  apply BitVec.eq_of_toNat_eq
  rw [rawField_toNat, decoder_cp_eq_div, decoder_d_eq_mod]
  omega

theorem op_of_decodeWord {w : Word} {i : Instr} (h : decodeWord w = .ok i) : (decoder w).op = opOfInstr i := by
  obtain ⟨j, hj, hop, -⟩ | ⟨hj, -⟩ := decodeWord_cases w
  · obtain rfl : j = i := Except.ok.inj (hj.symm.trans h)
    exact hop
  · rw [hj] at h
    cases h

/-- Settles O7: the verdict fixes the opcode, and the word is its opcode, B and C side by side. -/
theorem encodeDecodeAgree : Obligations.EncodeDecodeAgree := by
  intro w i h
  have hop := op_of_decodeWord h
  have hcode : (decoder w).opcode = opcodeOf i := (opOf_eq_opOfInstr_iff i _).1 hop
  have hw : opcodeOf i ++ (decoder w).b ++ (decoder w).c = w := hcode ▸ decoder_fields_append w
  rw [decodeWord, hop] at h
  cases i with
  | load b c => obtain ⟨rfl, rfl⟩ := Instr.load.inj (Except.ok.inj h); exact hw
  | read b c => obtain ⟨rfl, rfl⟩ := Instr.read.inj (Except.ok.inj h); exact hw
  | abs b c => obtain ⟨rfl, rfl⟩ := Instr.abs.inj (Except.ok.inj h); exact hw
  | write b cp d =>
    obtain ⟨rfl, rfl, rfl⟩ := Instr.write.inj (Except.ok.inj h)
    rwa [← rawField_decoder] at hw

/-- Settles O1, by the decoder's answer on each word. -/
theorem sampleWordsDecode : Obligations.SampleWordsDecode :=
  ⟨rfl, rfl, rfl, rfl, rfl, rfl, rfl⟩

/-- Settles O50, by the packing of each mnemonic (R70, R71). -/
theorem packingIsEncoding : Obligations.PackingIsEncoding := packWord_eq_encode

end Sys2Proof.Proofs

/-! ## The engine's invariant (10_state.md)

That every step keeps it (R13, R15, R19), and what it says of the states of a run. -/

namespace Sys2Proof.Proofs

open Sys2Proof Sys2Proof.Machine Sys2Proof.Safety

/-! ### The fault record -/

theorem recordConsistent_of_running {s : State} (hs : s.status = .running) :
    RecordConsistent s ↔ s.faultKind = none ∧ s.faultIndex = 0 := by
  simp only [RecordConsistent, hs]

theorem recordConsistent_of_failed {s : State} (hs : s.status = .failed) :
    RecordConsistent s ↔ s.faultKind ≠ none ∧ s.faultIndex = s.pc / 8 := by
  simp only [RecordConsistent, hs]

/-- Before a fault the record is None and 0. -/
theorem record_none_of_not_failed {s : State} (h : RecordConsistent s) (hs : s.status ≠ .failed) :
    s.faultKind = none ∧ s.faultIndex = 0 := by
  cases hst : s.status with
  | running => exact (recordConsistent_of_running hst).1 h
  | halted =>
    simp only [RecordConsistent, hst] at h
    obtain ⟨hk, hi, -⟩ := h
    exact ⟨hk, hi⟩
  | failed => exact absurd hst hs

theorem recordConsistent_halt {s : State} (hs : s.status = .running) (h : RecordConsistent s)
    (hpc : s.pc = s.stream.length) : RecordConsistent (halt s) := by
  obtain ⟨hk, hi⟩ := (recordConsistent_of_running hs).1 h
  exact ⟨hk, hi, hpc⟩

theorem recordConsistent_raiseFault (s : State) (k : EngineFault) : RecordConsistent (raiseFault s k) :=
  ⟨nofun, rfl⟩

theorem recordConsistent_advanceWith {s : State} (hs : s.status = .running) (h : RecordConsistent s) (m : Memory) :
    RecordConsistent (advanceWith s m) :=
  (recordConsistent_of_running (s := advanceWith s m) hs).2 ((recordConsistent_of_running hs).1 h)

/-! ### The range of a cell (R13) -/

theorem cellInRange_signed_iff (v : Int) : CellInRange true v ↔ -(2 ^ 31) ≤ v ∧ v ≤ 2 ^ 31 := by
  simp only [CellInRange, if_true]

theorem cellInRange_unsigned_iff (v : Int) : CellInRange false v ↔ 0 ≤ v ∧ v ≤ 2 ^ 32 - 1 := by
  simp only [CellInRange, Bool.false_eq_true, if_false]

theorem cellInRange_zero (immSigned : Bool) : CellInRange immSigned 0 := by
  cases immSigned with
  | true => rw [cellInRange_signed_iff]; decide
  | false => rw [cellInRange_unsigned_iff]; decide

theorem cellInRange_loadImmediate (immSigned : Bool) (c : BitVec 32) :
    CellInRange immSigned (loadImmediate immSigned c) := by
  cases immSigned with
  | true =>
    have hlo := BitVec.le_toInt c
    have hhi := BitVec.toInt_lt (x := c)
    rw [cellInRange_signed_iff, loadImmediate, if_pos rfl, sext32]
    omega
  | false =>
    have hlt := c.isLt
    rw [cellInRange_unsigned_iff, loadImmediate, if_neg Bool.false_ne_true, zext32]
    omega

theorem absValue_eq_natAbs (v : Int) : absValue v = (v.natAbs : Int) := by
  rw [absValue]
  split <;> omega

theorem absValue_of_nonneg {v : Int} (h : 0 ≤ v) : absValue v = v := if_pos h

theorem cellInRange_absValue {immSigned : Bool} {v : Int} (h : CellInRange immSigned v) :
    CellInRange immSigned (absValue v) := by
  rw [absValue_eq_natAbs]
  cases immSigned with
  | true => rw [cellInRange_signed_iff] at h ⊢; omega
  | false => rw [cellInRange_unsigned_iff] at h ⊢; omega

/-- What an instruction stores is in the range where all cells are: LOAD's immediate by its reading, the others' value
as that of a cell. -/
theorem cellInRange_writeOf {s : State} (h : CellsInRange s) (i : Instr) :
    CellInRange s.straps.immSigned (writeOf i s).2 := by
  cases i with
  | load b c => exact cellInRange_loadImmediate _ c
  | read b c => exact h _
  | abs b c => exact cellInRange_absValue (h _)
  | write b cp d => exact h _

theorem cellsInRange_advanceWith_set {s : State} (h : CellsInRange s) (k : Nat) {v : Int}
    (hv : CellInRange s.straps.immSigned v) : CellsInRange (advanceWith s (s.mem.set k v)) := by
  intro a
  rw [advanceWith_straps, advanceWith_mem, Memory.get_set]
  split
  · exact hv
  · exact h a

/-! ### Every step keeps the invariant -/

theorem engineInv_halt {s : State} (hs : s.status = .running) (h : EngineInv s) (hpc : s.pc = s.stream.length) :
    EngineInv (halt s) :=
  ⟨h.mem_wf, h.pc_aligned, h.pc_le, recordConsistent_halt hs h.record hpc, h.range⟩

theorem engineInv_raiseFault {s : State} (h : EngineInv s) (k : EngineFault) : EngineInv (raiseFault s k) :=
  ⟨h.mem_wf, h.pc_aligned, h.pc_le, recordConsistent_raiseFault s k, h.range⟩

/-- A completed instruction keeps the invariant, since the word it ran lies within the stream. -/
theorem engineInv_advanceWith {s : State} (hs : s.status = .running) (h : EngineInv s)
    (hword : 8 ≤ s.stream.length - s.pc) {i : Instr} (hc : Completes i s) :
    EngineInv (advanceWith s (s.mem.set (writeOf i s).1 (writeOf i s).2)) where
  mem_wf := Memory.wf_set h.mem_wf (writeAddress_of_completes hc).2 _
  pc_aligned := by have := h.pc_aligned; rw [advanceWith_pc]; omega
  pc_le := by rw [advanceWith_pc, advanceWith_stream]; omega
  record := recordConsistent_advanceWith hs h.record _
  range := cellsInRange_advanceWith_set h.range _ (cellInRange_writeOf h.range i)

/-- Settles O37, by the forms of a next state. -/
theorem engineInvariantKept : Obligations.EngineInvariantKept := by
  intro s t h hstep
  obtain ⟨hs, ⟨hpc, rfl⟩ | ⟨-, -, rfl⟩ | ⟨hword, w, -, ⟨-, rfl⟩ | ⟨i, -, ⟨hc, rfl⟩ | ⟨-, rfl⟩⟩⟩⟩ := step_cases hstep
  · exact engineInv_halt hs h hpc
  · exact engineInv_raiseFault h _
  · exact engineInv_raiseFault h _
  · exact engineInv_advanceWith hs h hword hc
  · exact engineInv_raiseFault h _

theorem engineInv_resetWith (straps : Config.Straps) (stream : List Byte) :
    EngineInv (State.resetWith straps stream) where
  mem_wf := State.resetWith_mem_wf straps stream
  pc_aligned := rfl
  pc_le := Nat.zero_le _
  record := ⟨rfl, rfl⟩
  range := fun _ => cellInRange_zero straps.immSigned

/-- Settles O38: a run starts in the state reset establishes. -/
theorem engineInvariantAtReset : Obligations.EngineInvariantAtReset := by
  refine ⟨engineInv_resetWith _ _, fun straps stream s hl => ?_⟩
  rw [launch_eq_resetWith hl]
  exact engineInv_resetWith straps stream

/-! ### The states of a run -/

theorem step_straps {s t : State} (h : step s = .next t) : t.straps = s.straps := by
  obtain ⟨-, rfl⟩ | ⟨k, rfl⟩ | ⟨m, rfl⟩ := step_ending h
  · exact halt_straps s
  · exact raiseFault_straps s k
  · exact advanceWith_straps s m

theorem runSteps_straps (n : Nat) (s : State) : (runSteps n s).straps = s.straps :=
  runSteps_induction (P := fun t => t.straps = s.straps) (fun _ _ ht h => (step_straps h).trans ht) rfl n

theorem runSteps_stream (n : Nat) (s : State) : (runSteps n s).stream = s.stream :=
  runSteps_induction (P := fun t => t.stream = s.stream) (fun _ _ ht h => (step_stream h).trans ht) rfl n

theorem launch_straps {straps : Config.Straps} {stream : List Byte} {s : State} (hl : launch straps stream = .ok s) :
    s.straps = straps := by
  rw [launch_eq_resetWith hl, State.resetWith_straps]

theorem launch_stream {straps : Config.Straps} {stream : List Byte} {s : State} (hl : launch straps stream = .ok s) :
    s.stream = stream := by
  rw [launch_eq_resetWith hl, State.resetWith_stream]

theorem launch_length_lt {straps : Config.Straps} {stream : List Byte} {s : State}
    (hl : launch straps stream = .ok s) : stream.length < 2 ^ 64 := by
  by_contra hlong
  rw [launch, if_neg hlong] at hl
  cases hl

/-- Every state of a launched run has the invariant. -/
theorem engineInv_runSteps {straps : Config.Straps} {stream : List Byte} {s : State}
    (hl : launch straps stream = .ok s) (n : Nat) : EngineInv (runSteps n s) :=
  runSteps_induction engineInvariantKept (engineInvariantAtReset.2 straps stream s hl) n

/-- Settles O19: the record is that of the invariant, and after a fault there is no step. -/
theorem faultRecordOfRun : Obligations.FaultRecordOfRun := by
  refine ⟨?_, rfl, rfl, rfl, rfl⟩
  intro straps stream s n hl t
  have hrec : RecordConsistent t := (engineInv_runSteps hl n).record
  refine ⟨record_none_of_not_failed hrec, fun hfailed => ?_⟩
  obtain ⟨hkind, hindex⟩ := (recordConsistent_of_failed hfailed).1 hrec
  exact ⟨hkind, hindex, runSteps_of_not_running (by rw [hfailed]; nofun)⟩

/-- Settles O40: the cursor is aligned and within the stream by the invariant, and the length by the launch. -/
theorem cursorWithinStream : Obligations.CursorWithinStream := by
  refine ⟨?_, fun straps stream hlong => if_neg (Nat.not_lt.2 hlong)⟩
  intro straps stream s n hl t
  have hinv : EngineInv t := engineInv_runSteps hl n
  have haligned := hinv.pc_aligned
  have hle : t.pc ≤ stream.length := by
    have := hinv.pc_le
    rwa [runSteps_stream, launch_stream hl] at this
  exact ⟨haligned, hle, by omega, launch_length_lt hl⟩

/-! ### The width of a cell (R12) -/

/-- The bounds of R13 under both readings together. -/
theorem bounds_of_cellInRange {immSigned : Bool} {v : Int} (h : CellInRange immSigned v) :
    -(2 ^ 31) ≤ v ∧ v ≤ 2 ^ 32 - 1 := by
  cases immSigned with
  | true => rw [cellInRange_signed_iff] at h; omega
  | false => rw [cellInRange_unsigned_iff] at h; omega

/-- Values of magnitude below `2 ^ 32` are held by a cell of 33 bits or more, and none is its most negative value. -/
theorem fitsCell_of_bounds {width : Nat} (hw : 33 ≤ width) {v : Int} (hlo : -(2 ^ 32) < v) (hhi : v < 2 ^ 32) :
    FitsCell width v ∧ v ≠ -(2 ^ (width - 1)) := by
  have hpow : (2 : Int) ^ 32 ≤ 2 ^ (width - 1) := pow_le_pow_right₀ (by decide) (by omega)
  exact ⟨BitVec.toInt_ofInt_eq_self (by omega) (by omega) (by omega), by omega⟩

/-- Settles O39: the range of the invariant bounds the cell, its absolute value and every target through it. -/
theorem cellValueRange : Obligations.CellValueRange := by
  intro straps stream s n hl a v
  have hcell : CellInRange straps.immSigned v := by
    have := (engineInv_runSteps hl n).range a
    rwa [runSteps_straps, launch_straps hl] at this
  obtain ⟨hlo, hhi⟩ := bounds_of_cellInRange hcell
  refine ⟨fun hsg => ?_, fun hun => ?_, fun width hw => ?_, fun d => ?_⟩
  · rwa [hsg, cellInRange_signed_iff] at hcell
  · rwa [hun, cellInRange_unsigned_iff] at hcell
  · obtain ⟨hfit, hne⟩ := fitsCell_of_bounds hw (v := v) (by omega) (by omega)
    have habs := absValue_eq_natAbs v
    exact ⟨hfit, (fitsCell_of_bounds hw (by omega) (by omega)).1, hne⟩
  · have hd := d.isLt
    have htarget : targetIndex v d = v + (d.toNat : Int) := rfl
    omega

end Sys2Proof.Proofs

/-! ## The fetched word and the step (20_memory.md section 2, 40_step_and_dispatch.md section 1, 60_exceptions.md)

What fetch delivers at the cursor, that the step runs what the decoder makes of it, and what a failing step leaves. -/

namespace Sys2Proof.Proofs

open Sys2Proof Sys2Proof.Machine Sys2Proof.Safety

/-! ### Fetch -/

/-- Where the bytes at the cursor hold a word, fetch delivers it. -/
theorem fetch_of_splitWord {s : State} {w : Word} {rest : List Byte}
    (h : splitWord (s.stream.drop s.pc) = some (w, rest)) : fetch s = .word w := by
  have hne : s.pc ≠ s.stream.length := by
    intro he
    rw [he, List.drop_length] at h
    cases h
  simp only [fetch, if_neg hne, h]

theorem fetch_of_tail {s : State} (hne : s.pc ≠ s.stream.length) (hlt : s.stream.length - s.pc < 8) :
    fetch s = .partialWord (s.stream.length - s.pc) := by
  have hsplit : splitWord (s.stream.drop s.pc) = none := splitWord_of_short (by rwa [List.length_drop])
  simp only [fetch, if_neg hne, hsplit]

/-- The word at the head of a byte sequence as a sum of its first eight bytes (R33). -/
theorem splitWord_toNat {bytes rest : List Byte} {w : Word} (h : splitWord bytes = some (w, rest)) {byte : Nat → Nat}
    (hbyte : ∀ k, byte k = (bytes.getD k 0#8).toNat) :
    w.toNat = byte 0 + byte 1 * 2 ^ 8 + byte 2 * 2 ^ 16 + byte 3 * 2 ^ 24 + byte 4 * 2 ^ 32 +
      byte 5 * 2 ^ 40 + byte 6 * 2 ^ 48 + byte 7 * 2 ^ 56 := by
  match bytes, h with
  | b0 :: b1 :: b2 :: b3 :: b4 :: b5 :: b6 :: b7 :: _, rfl =>
    simp only [hbyte]
    exact wordOfBytes_toNat b0 b1 b2 b3 b4 b5 b6 b7

/-- WRITE's D is the low six bits of the word (R55). -/
theorem displacement_toNat_of_decodeWord {w : Word} {b : BitVec 28} {cp : BitVec 26} {d : BitVec 6}
    (h : decodeWord w = .ok (.write b cp d)) : d.toNat = w.toNat % 64 := by
  have hw := encode_write_toNat b cp d
  rw [encodeDecodeAgree w _ h] at hw
  omega

/-- Settles O8: the eight bytes at the cursor are those the word is summed from. -/
theorem fetchIsLittleEndian : Obligations.FetchIsLittleEndian := by
  intro s hlen byte
  obtain ⟨w, hw⟩ := splitWord_of_long (bytes := s.stream.drop s.pc) (by rw [List.length_drop]; omega)
  have hat : ∀ k, byte k = ((s.stream.drop s.pc).getD k 0#8).toNat := fun k => by
    simp only [byte, List.getD_eq_getElem?_getD, List.getElem?_drop]
  have hsum := splitWord_toNat hw hat
  have hbyte : ∀ k, byte k < 256 := fun k => (s.stream.getD (s.pc + k) 0#8).isLt
  refine ⟨w, fetch_of_splitWord hw, hsum, ?_, fun b cp d hd => ?_⟩
  · rw [decoder_opcode_toNat]
    have := hbyte 0; have := hbyte 1; have := hbyte 2; have := hbyte 3
    have := hbyte 4; have := hbyte 5; have := hbyte 6
    omega
  · rw [displacement_toNat_of_decodeWord hd]
    omega

/-! ### The step runs the decoded instruction -/

theorem decode_ok {bytes rest : List Byte} {i : Instr} (h : decode bytes = .ok (i, rest)) :
    ∃ w, splitWord bytes = some (w, rest) ∧ decodeWord w = .ok i := by
  rw [decode] at h
  cases hs : splitWord bytes with
  | none =>
    simp only [hs] at h
    split at h <;> cases h
  | some p =>
    obtain ⟨w, r⟩ := p
    simp only [hs] at h
    cases hd : decodeWord w with
    | ok j =>
      simp only [hd, Except.ok.injEq, Prod.mk.injEq] at h
      obtain ⟨rfl, rfl⟩ := h
      exact ⟨w, rfl, hd⟩
    | error e =>
      rw [hd] at h
      cases h

/-- Settles O10: fetch delivers the word the bytes at the cursor hold. -/
theorem stepRunsDecodedInstruction : Obligations.StepRunsDecodedInstruction := by
  intro s i rest hs hdec _
  obtain ⟨w, hw, hd⟩ := decode_ok hdec
  exact step_of_decoded hs (fetch_of_splitWord hw) hd

/-! ### A placed word -/

theorem withFetchWord_eq (s : State) (nbits w : Nat) :
    s.withFetchWord nbits w =
      { s with stream := placeBytes s.stream s.pc (bytesOfWord (tableWord nbits w)), status := .running } := rfl

/-- Placed bytes stand at the offset. -/
theorem drop_placeBytes (stream : List Byte) (offset : Nat) (bytes : List Byte) :
    (placeBytes stream offset bytes).drop offset = bytes ++ stream.drop (offset + bytes.length) := by
  have hlen : (stream.take offset ++ List.replicate (offset - stream.length) 0#8).length = offset := by
    rw [List.length_append, List.length_take, List.length_replicate]
    omega
  rw [placeBytes, List.append_assoc, List.drop_append_of_le_length hlen.ge, List.drop_of_length_le hlen.le,
    List.nil_append]

theorem fetch_withFetchWord (s : State) (nbits w : Nat) :
    fetch (s.withFetchWord nbits w) = .word (tableWord nbits w) := by
  apply fetch_of_splitWord
  rw [withFetchWord_eq, drop_placeBytes, splitWord_bytesOfWord]

theorem decodeWord_of_decodeTableWord {nbits w : Nat} {i : Instr} (h : decodeTableWord nbits w = some i) :
    decodeWord (tableWord nbits w) = .ok i := by
  have hsplit := splitWord_bytesOfWord (tableWord nbits w) []
  rw [List.append_nil] at hsplit
  cases hd : decodeWord (tableWord nbits w) with
  | ok j => simpa only [decodeTableWord, decode_of_splitWord hsplit hd, Option.some.injEq, Except.ok.injEq] using h
  | error e => simp only [decodeTableWord, decode, hsplit, hd, reduceCtorEq] at h

/-- Settles O16: the placed bytes are those at the cursor. -/
theorem placedWordRunsNext : Obligations.PlacedWordRunsNext := fun s nbits w =>
  ⟨fun _ hi => step_of_decoded rfl (fetch_withFetchWord s nbits w) (decodeWord_of_decodeTableWord hi),
    fetch_withFetchWord s nbits w, rfl⟩

/-! ### The run state -/

/-- Settles O15: `step` answers a next state only in Running. -/
theorem statusTransitions : Obligations.StatusTransitions := by
  refine ⟨State.resetWith_status, fun _ _ => status_running_of_step,
    fun s hs => ⟨step_ne_next_of_not_running hs, stepOrStay_of_not_running hs⟩, rfl, rfl, rfl, fun x => ?_⟩
  cases x <;> decide

/-! ### A failing step -/

/-- A step that ends in Failed is the entry of a fault. -/
theorem eq_raiseFault_of_step_failed {s t : State} (h : step s = .next t) (ht : t.status = .failed) :
    ∃ k, t = raiseFault s k := by
  obtain ⟨-, rfl⟩ | hraise | ⟨m, rfl⟩ := step_ending h
  · rw [halt_status] at ht
    cases ht
  · exact hraise
  · rw [advanceWith_status, status_running_of_step h] at ht
    cases ht

/-- Settles O17: the entry of a fault is the only form of a next state in Failed. -/
theorem faultEntryChangesRecordOnly : Obligations.FaultEntryChangesRecordOnly :=
  fun _ _ => eq_raiseFault_of_step_failed

/-- A step that fails at a fetched word raises by the decoder's verdict. -/
theorem faultKind_of_fetch_word {s t : State} {w : Word} (h : step s = .next t) (ht : t.status = .failed)
    (hf : fetch s = .word w) :
    t.faultKind = if (decoder w).op = .illegal then some .unknownOpcode else some .addressOutOfRange := by
  have hs := status_running_of_step h
  obtain ⟨i, hd, -, hop⟩ | ⟨-, hop⟩ := decodeWord_cases w
  · rw [step_of_decoded hs hf hd] at h
    rw [if_neg hop]
    obtain ⟨-, he⟩ | ⟨-, he⟩ := exec_cases i s <;> cases he.symm.trans h
    · rw [advanceWith_status, hs] at ht
      cases ht
    · rfl
  · cases (step_of_illegal hs hf hop).symm.trans h
    rw [if_pos hop, raiseFault_faultKind]

/-- Settles O18: a partial word raises in `step` itself, a whole one by the decoder's verdict. -/
theorem faultKindsExclude : Obligations.FaultKindsExclude := by
  intro s t h ht
  refine ⟨fun ⟨n, hf⟩ => ?_, fun w hf hop => ?_, fun w hf hop => ?_⟩
  · simp only [step, status_running_of_step h, hf, Host.Outcome.next.injEq] at h
    rw [← h, raiseFault_faultKind]
  · rw [faultKind_of_fetch_word h ht hf, if_pos hop]
  · rw [faultKind_of_fetch_word h ht hf, if_neg hop]

end Sys2Proof.Proofs

/-! ## The memory array (20_memory.md section 4)

Range-checked accesses (R24, R36), and that the canonical form of a memory is determined by its reads. -/

namespace Sys2Proof.Proofs

open Sys2Proof Sys2Proof.Machine Sys2Proof.Safety

/-- Settles O34: an index in range names one cell, and two such indices that differ name different cells. -/
theorem arrayReadAfterWrite : Obligations.ArrayReadAfterWrite := by
  intro m a v
  refine ⟨fun hout => ?_, fun h0 h1 => ?_⟩
  · have hna : ¬ InRange a := fun ⟨h0, h1⟩ => by omega
    exact ⟨memRead_of_not hna, memWrite_of_not hna⟩
  · have ha : InRange a := ⟨h0, h1⟩
    refine ⟨_, memWrite_of_inRange ha, ?_, fun x hne => ?_⟩
    · rw [memRead_of_inRange ha, Memory.get_set, if_pos rfl]
    · by_cases hx : InRange x
      · have hcell : x.toNat ≠ a.toNat := by have := hx.1; omega
        rw [memRead_of_inRange hx, memRead_of_inRange hx, Memory.get_set, if_neg hcell]
      · rw [memRead_of_not hx, memRead_of_not hx]

/-! ### The canonical form -/

/-- The head of a canonical memory is a cell that exists and does not hold 0. -/
theorem wfFrom_cons {lo k : Nat} {v : Int} {rest : Memory} (h : Memory.wfFrom lo ((k, v) :: rest) = true) :
    lo ≤ k ∧ k < 1024 ∧ v ≠ 0 ∧ Memory.wfFrom (k + 1) rest = true := by
  simpa only [Memory.wfFrom, Bool.and_eq_true, decide_eq_true_eq, and_assoc] using h

theorem wfFrom_cons_self {lo k : Nat} {v : Int} {rest : Memory} (h : Memory.wfFrom lo ((k, v) :: rest) = true) :
    Memory.wfFrom k ((k, v) :: rest) = true := by
  obtain ⟨-, hk, hv, hrest⟩ := wfFrom_cons h
  simp only [Memory.wfFrom, Bool.and_eq_true, decide_eq_true_eq]
  exact ⟨⟨⟨le_rfl, hk⟩, hv⟩, hrest⟩

theorem get_cons_self (k : Nat) (v : Int) (rest : Memory) : Memory.get ((k, v) :: rest) k = v := by
  rw [Memory.get_cons, if_pos rfl]

/-- The least listed cell of a canonical memory is no greater than any cell that does not read 0. -/
theorem head_le_of_get_ne_zero {lo k a : Nat} {v : Int} {rest : Memory}
    (h : Memory.wfFrom lo ((k, v) :: rest) = true) (ha : Memory.get ((k, v) :: rest) a ≠ 0) : k ≤ a := by
  by_contra hlt
  exact ha (Memory.get_of_lt_lo (wfFrom_cons_self h) (by omega))

/-- Canonical memories that read alike list the same head, then rests that read alike. -/
theorem eq_of_wfFrom_of_get_eq {lo lo' : Nat} {m m' : Memory} (h : m.wfFrom lo = true) (h' : m'.wfFrom lo' = true)
    (hget : ∀ a, m.get a = m'.get a) : m = m' := by
  induction m generalizing m' lo lo' with
  | nil =>
    cases m' with
    | nil => rfl
    | cons p rest =>
      obtain ⟨k, v⟩ := p
      obtain ⟨-, -, hv, -⟩ := wfFrom_cons h'
      exact absurd ((get_cons_self k v rest).symm.trans (hget k).symm) hv
  | cons p rest ih =>
    obtain ⟨k, v⟩ := p
    obtain ⟨-, -, hv, hrest⟩ := wfFrom_cons h
    have hk : Memory.get ((k, v) :: rest) k = v := get_cons_self k v rest
    cases m' with
    | nil => exact absurd (hk.symm.trans (hget k)) hv
    | cons p' rest' =>
      obtain ⟨k', v'⟩ := p'
      obtain ⟨-, -, hv', hrest'⟩ := wfFrom_cons h'
      have hk' : Memory.get ((k', v') :: rest') k' = v' := get_cons_self k' v' rest'
      obtain rfl : k = k' := le_antisymm
        (head_le_of_get_ne_zero h (by rwa [hget k', hk'])) (head_le_of_get_ne_zero h' (by rwa [← hget k, hk]))
      obtain rfl : v = v' := hk.symm.trans ((hget k).trans hk')
      rw [ih hrest hrest' fun a => ?_]
      by_cases ha : a = k
      · rw [Memory.get_of_lt_lo hrest (by omega), Memory.get_of_lt_lo hrest' (by omega)]
      · simpa only [Memory.get_cons, if_neg (Ne.symm ha)] using hget a

/-- Settles O35: cells beyond the array read 0 in canonical form. -/
theorem canonicalMemoriesEqual : Obligations.CanonicalMemoriesEqual := by
  refine fun m m' h h' hget => eq_of_wfFrom_of_get_eq h h' fun a => ?_
  by_cases ha : a ≤ 1023
  · exact hget a ha
  · rw [Memory.get_of_ge h (by omega), Memory.get_of_ge h' (by omega)]

/-- Storing in a cell what it holds changes no canonical memory. -/
theorem set_get_self {m : Memory} (h : m.wf = true) {k : Nat} (hk : k < 1024) : m.set k (m.get k) = m := by
  refine canonicalMemoriesEqual _ _ (Memory.wf_set h hk _) h fun a _ => ?_
  rw [Memory.get_set]
  split
  · next ha => rw [ha]
  · rfl

end Sys2Proof.Proofs

/-! ## The four instructions (41_load.md to 44_write.md)

When each raises, what each stores where it completes, what each leaves unchanged, and on which straps and cells its
outcome rests. -/

namespace Sys2Proof.Proofs

open Sys2Proof Sys2Proof.Machine Sys2Proof.Safety

/-! ### When an instruction raises -/

/-- Settles O20: the index of cell B is the only one LOAD computes. -/
theorem loadFaultsExactly : Obligations.LoadFaultsExactly := by
  refine fun b c s hs => ⟨fun hout => ?_, fun hb => ?_, Int.natCast_nonneg _⟩
  · exact exec_of_not_completes (i := .load b c) (Nat.not_le.2 hout)
  · exact ⟨_, exec_of_completes (i := .load b c) (Nat.le_of_lt_succ hb), hs⟩

/-- Settles O22: ABS checks its indices as READ does. -/
theorem absFaultsExactly : Obligations.AbsFaultsExactly := by
  refine fun b c s hs => ⟨fun hout => ?_, fun ⟨hb, hc⟩ => ?_⟩
  · exact exec_of_not_completes (i := .abs b c) ((not_completes_read_iff b c s).2 hout)
  · exact ⟨_, exec_of_completes (i := .abs b c) ⟨Nat.le_of_lt_succ hb, Nat.le_of_lt_succ hc⟩, hs⟩

/-- WRITE's source index as a natural number, in the terms of C' and D: that of `writeSource` by `writeSource_eq`. -/
def sourceIndex (mode : Config.WriteSrcMode) (cp : BitVec 26) (d : BitVec 6) : Nat :=
  match mode with
  | .raw => 64 * cp.toNat + d.toNat
  | .shifted => cp.toNat

theorem writeSource_eq (mode : Config.WriteSrcMode) (cp : BitVec 26) (d : BitVec 6) :
    writeSource mode cp d = (sourceIndex mode cp d : Int) := by
  cases mode with
  | raw => exact congrArg Nat.cast (rawField_toNat cp d)
  | shifted => rfl

theorem targetIndex_eq (base : Int) (d : BitVec 6) : targetIndex base d = base + (d.toNat : Int) := rfl

/-- The condition under which WRITE does not raise, by its three indices (R110). -/
theorem completes_write_iff (b : BitVec 28) (cp : BitVec 26) (d : BitVec 6) (s : State) :
    Completes (.write b cp d) s ↔
      b.toNat ≤ 1023 ∧ (0 ≤ s.mem.get b.toNat + (d.toNat : Int) ∧ s.mem.get b.toNat + (d.toNat : Int) ≤ 1023) ∧
      sourceIndex s.straps.writeSrcMode cp d ≤ 1023 := by
  rw [Completes, writeSource_eq, targetIndex_eq]
  simp only [InRange]
  omega

/-- Settles O23: the four conditions are the ways one of WRITE's three indices can be out of range. -/
theorem writeFaultsExactly : Obligations.WriteFaultsExactly := by
  intro b cp d s hs sum src raises
  have hsrc : sourceIndex s.straps.writeSrcMode cp d = src := rfl
  have hiff : Completes (.write b cp d) s ↔ ¬ raises := by
    rw [completes_write_iff, hsrc]
    simp only [raises]
    omega
  refine ⟨fun hr => ?_, fun hr => ?_⟩
  · exact exec_of_not_completes (fun hc => hiff.1 hc hr)
  · exact ⟨_, exec_of_completes (hiff.2 hr), hs⟩

/-! ### What an instruction stores -/

/-- An instruction that completes stores its value in its cell, and changes nothing but that cell and the cursor. -/
theorem exec_effect_of_completes {i : Instr} {s : State} (h : Completes i s) :
    ∃ t, exec i s = .next t ∧ t.mem.get (writeOf i s).1 = (writeOf i s).2 ∧
      (∀ a : Nat, a ≠ (writeOf i s).1 → t.mem.get a = s.mem.get a) ∧ t = { s with mem := t.mem, pc := s.pc + 8 } := by
  refine ⟨_, exec_of_completes h, ?_, fun a ha => ?_, rfl⟩
  · rw [advanceWith_mem, Memory.get_set, if_pos rfl]
  · rw [advanceWith_mem, Memory.get_set, if_neg ha]

/-- LOAD's immediate in each reading of C, as the arithmetic of its unsigned value (R91). -/
theorem loadImmediate_eq (immSigned : Bool) (c : BitVec 32) :
    loadImmediate immSigned c =
      if immSigned then (if c.toNat < 2 ^ 31 then (c.toNat : Int) else (c.toNat : Int) - 2 ^ 32)
      else (c.toNat : Int) := by
  cases immSigned with
  | true =>
    simp only [loadImmediate, sext32, if_true, BitVec.toInt_eq_toNat_cond]
    split <;> split <;> omega
  | false => rfl

/-- Settles O24: LOAD completes by its one index check, and stores the immediate. -/
theorem loadStoresImmediate : Obligations.LoadStoresImmediate := by
  refine ⟨rfl, fun b c s hb => ?_⟩
  obtain ⟨t, hexec, hval, hframe, ht⟩ := exec_effect_of_completes (i := .load b c) (s := s) hb
  have hstored : t.mem.get b.toNat = loadImmediate s.straps.immSigned c := hval
  have hlt := c.isLt
  rw [loadImmediate_eq] at hstored
  refine ⟨t, hexec, hstored, fun hsg => ?_, fun hun => ?_, hframe, ht⟩
  · rw [hstored, if_pos hsg]
    split <;> omega
  · rw [hstored, hun, if_neg Bool.false_ne_true]
    omega

/-- Settles O25: where both cells exist READ completes, and its write is the copy. -/
theorem readCopiesCell : Obligations.ReadCopiesCell :=
  fun b c _ hb hc => exec_effect_of_completes (i := .read b c) ⟨hb, hc⟩

/-- Settles O26: where both cells exist ABS completes, and its value is `absValue` of cell C. -/
theorem absStoresAbsoluteValue : Obligations.AbsStoresAbsoluteValue := by
  intro b c s hb hc
  obtain ⟨t, hexec, hval, hrest⟩ := exec_effect_of_completes (i := .abs b c) (s := s) ⟨hb, hc⟩
  exact ⟨t, hexec, hval.trans (absValue_eq_natAbs _), hrest⟩

/-- Settles O27: where the pointer, the target and the source exist WRITE completes, and its cell is the target. -/
theorem writeStoresThroughPointer : Obligations.WriteStoresThroughPointer := by
  refine ⟨rfl, ?_⟩
  intro b cp d s target src hb h0 h1 hsrc
  obtain ⟨t, hexec, hval, hframe, ht⟩ :=
    exec_effect_of_completes ((completes_write_iff b cp d s).2 ⟨hb, ⟨h0, h1⟩, hsrc⟩)
  have hcell : (writeOf (.write b cp d) s).1 = target.toNat := rfl
  have hvalue : (writeOf (.write b cp d) s).2 = s.mem.get src := by
    rw [writeOf, writeSource_eq, Int.toNat_natCast]
    rfl
  rw [hcell, hvalue] at hval
  exact ⟨t, hexec, hval, fun a ha => hframe a (by rw [hcell]; omega), ht⟩

/-! ### What an instruction leaves unchanged -/

/-- Settles O28: a completed instruction writes the one cell at its write address, and a fault none. -/
theorem execFrame : Obligations.ExecFrame := by
  intro i s t h
  obtain ⟨hc, he⟩ | ⟨-, he⟩ := exec_cases i s <;> cases he.symm.trans h
  · refine ⟨rfl, rfl, fun a ha => ?_, .inl ⟨rfl, rfl, rfl, rfl⟩⟩
    have hne : a ≠ (writeOf i s).1 := by
      rintro rfl
      exact ha (writeAddress_of_completes hc).1
    rw [advanceWith_mem, Memory.get_set, if_neg hne]
  · exact ⟨rfl, rfl, fun _ _ => rfl, .inr ⟨rfl, rfl, rfl⟩⟩

/-- Settles O30: the value stored is the one the cell holds. -/
theorem readIntoItselfIsNoop : Obligations.ReadIntoItselfIsNoop := by
  intro b s hwf hb
  have hc : (b.setWidth 32).toNat = b.toNat := by
    rw [BitVec.toNat_setWidth]
    omega
  rw [exec_of_completes (i := .read b (b.setWidth 32)) ⟨hb, by rwa [hc]⟩]
  simp only [writeOf, hc, set_get_self hwf (Nat.lt_succ_of_le hb), advanceWith]

/-- Settles O31: the two check the same indices, and the absolute value of a cell that is not negative is that cell. -/
theorem absIsReadWhenUnsigned : Obligations.AbsIsReadWhenUnsigned := by
  intro b c s hun hrange
  have hcell : CellInRange false (s.mem.get c.toNat) := hun ▸ hrange c.toNat
  have hnonneg : 0 ≤ s.mem.get c.toNat := ((cellInRange_unsigned_iff _).1 hcell).1
  have hwrite : writeOf (.abs b c) s = writeOf (.read b c) s := by
    rw [writeOf, writeOf, absValue_of_nonneg hnonneg]
  by_cases hc : Completes (.read b c) s
  · rw [exec_of_completes hc, exec_of_completes (i := .abs b c) hc, hwrite]
  · rw [exec_of_not_completes hc, exec_of_not_completes (i := .abs b c) hc]

/-! ### The straps and the cells an outcome rests on -/

/-- The strap an instruction's meaning reads agrees with that of the state (R20). -/
def StrapAgrees (i : Instr) (straps : Config.Straps) (s : State) : Prop :=
  match i with
  | .load _ _ => straps.immSigned = s.straps.immSigned
  | .read _ _ => True
  | .abs _ _ => True
  | .write _ _ _ => straps.writeSrcMode = s.straps.writeSrcMode

theorem completes_iff_of_strapAgrees {i : Instr} {straps : Config.Straps} {s : State} (h : StrapAgrees i straps s) :
    Completes i { s with straps := straps } ↔ Completes i s := by
  cases i with
  | load b c => exact Iff.rfl
  | read b c => exact Iff.rfl
  | abs b c => exact Iff.rfl
  | write b cp d =>
    have hmode : straps.writeSrcMode = s.straps.writeSrcMode := h
    simp only [Completes, hmode]

theorem writeOf_eq_of_strapAgrees {i : Instr} {straps : Config.Straps} {s : State} (h : StrapAgrees i straps s) :
    writeOf i { s with straps := straps } = writeOf i s := by
  cases i with
  | load b c =>
    have hsigned : straps.immSigned = s.straps.immSigned := h
    simp only [writeOf, hsigned]
  | read b c => rfl
  | abs b c => rfl
  | write b cp d =>
    have hmode : straps.writeSrcMode = s.straps.writeSrcMode := h
    simp only [writeOf, hmode]

/-- Settles O32: under the strap's value alone an instruction completes and stores as before. -/
theorem strapsMatterWhereStated : Obligations.StrapsMatterWhereStated := by
  refine ⟨fun _ _ => step_straps, fun s t straps i h hagree => ?_⟩
  have hstrap : StrapAgrees i straps s := by cases i <;> exact hagree
  have hiff := completes_iff_of_strapAgrees hstrap
  obtain ⟨hc, he⟩ | ⟨hn, he⟩ := exec_cases i s <;> cases he.symm.trans h
  · rw [exec_of_completes (hiff.2 hc), writeOf_eq_of_strapAgrees hstrap]
    rfl
  · exact exec_of_not_completes (mt hiff.1 hn)

/-- The memory `m` reads as that of `s` in the cells an instruction reads (R37). -/
def ReadsAgree (i : Instr) (s : State) (m : Memory) : Prop :=
  ∀ a ∈ cellsRead i s.straps, InRange a → m.get a.toNat = s.mem.get a.toNat

theorem pointer_get_eq {b : BitVec 28} {cp : BitVec 26} {d : BitVec 6} {s : State} {m : Memory}
    (h : ReadsAgree (.write b cp d) s m) (hb : b.toNat ≤ 1023) : m.get b.toNat = s.mem.get b.toNat := by
  simpa only [indexB_toNat] using h (indexB b) (List.mem_cons_self ..) ((inRange_indexB b).2 hb)

theorem completes_iff_of_readsAgree {i : Instr} {s : State} {m : Memory} (h : ReadsAgree i s m) :
    Completes i { s with mem := m } ↔ Completes i s := by
  cases i with
  | load b c => exact Iff.rfl
  | read b c => exact Iff.rfl
  | abs b c => exact Iff.rfl
  | write b cp d =>
    simp only [Completes]
    exact and_congr_right fun hb => by rw [pointer_get_eq h hb]

theorem writeOf_eq_of_readsAgree {i : Instr} {s : State} {m : Memory} (h : ReadsAgree i s m) (hc : Completes i s) :
    writeOf i { s with mem := m } = writeOf i s := by
  cases i with
  | load b c => rfl
  | read b c =>
    have hget := h (indexC c) (List.mem_cons_self ..) ((inRange_indexC c).2 hc.2)
    rw [indexC_toNat] at hget
    simp only [writeOf, hget]
  | abs b c =>
    have hget := h (indexC c) (List.mem_cons_self ..) ((inRange_indexC c).2 hc.2)
    rw [indexC_toNat] at hget
    simp only [writeOf, hget]
  | write b cp d =>
    obtain ⟨hb, -, hsrc⟩ := hc
    have hget := h _ (List.mem_cons_of_mem _ (List.mem_cons_self ..)) hsrc
    simp only [writeOf, pointer_get_eq h hb, hget]

/-- Settles O33: with another memory that agrees on the cells read, the same checks pass and the same write is made. -/
theorem unreadCellsDoNotMatter : Obligations.UnreadCellsDoNotMatter := by
  intro i s m (h : ReadsAgree i s m)
  have hiff := completes_iff_of_readsAgree h
  by_cases hc : Completes i s
  · have hc' := hiff.2 hc
    have hw := writeOf_eq_of_readsAgree h hc
    refine ⟨_, _, exec_of_completes hc, exec_of_completes hc', rfl, rfl, rfl, rfl, fun _ =>
      ⟨_, (writeAddress_of_completes hc).1, hw ▸ (writeAddress_of_completes hc').1, ?_⟩⟩
    simp only [advanceWith_mem, Memory.get_set, hw, if_pos]
  · refine ⟨_, _, exec_of_not_completes hc, exec_of_not_completes (mt hiff.1 hc), rfl, rfl, rfl, rfl, fun hpc => ?_⟩
    rw [raiseFault_pc] at hpc
    omega

end Sys2Proof.Proofs

/-! ## The ports of the array (10_state.md section 8)

That the write enable and the write port of R24 describe what a step does to the memory. -/

namespace Sys2Proof.Proofs

open Sys2Proof Sys2Proof.Machine Sys2Proof.Safety

theorem inRangeBit_some (a : Int) : inRangeBit (some a) = true ↔ InRange a := decide_eq_true_iff

theorem readPort_of_inRange {m : Memory} {a : Int} (h : InRange a) : readPort m (some a) = some (m.get a.toNat) :=
  if_pos h

/-- The write enable of an instruction is true exactly where every index it computes is in range. -/
theorem instrPorts_we_iff (i : Instr) (s : State) : (instrPorts s.straps s.mem i).we = true ↔ Completes i s := by
  cases i with
  | load b c => simp only [instrPorts, Completes, inRangeBit_some, inRange_indexB]
  | read b c =>
    simp only [instrPorts, Completes, Bool.and_eq_true, inRangeBit_some, inRange_indexB, inRange_indexC, and_comm]
  | abs b c =>
    simp only [instrPorts, Completes, Bool.and_eq_true, inRangeBit_some, inRange_indexB, inRange_indexC, and_comm]
  | write b cp d =>
    simp only [instrPorts, Completes, Bool.and_eq_true, inRangeBit_some, inRange_indexB]
    rw [and_assoc]
    refine and_congr_right fun hb => ?_
    have hptr := readPort_of_inRange (m := s.mem) ((inRange_indexB b).2 hb)
    rw [indexB_toNat] at hptr
    rw [hptr, Option.map_some, inRangeBit_some, and_comm]

/-- The write port of an instruction that completes carries its one write. -/
theorem instrPorts_write_of_completes {i : Instr} {s : State} (h : Completes i s) :
    (instrPorts s.straps s.mem i).waddr = some ((writeOf i s).1 : Int) ∧
    (instrPorts s.straps s.mem i).wdata = some (writeOf i s).2 := by
  cases i with
  | load b c => exact ⟨rfl, rfl⟩
  | read b c =>
    have hget := readPort_of_inRange (m := s.mem) ((inRange_indexC c).2 h.2)
    rw [indexC_toNat] at hget
    exact ⟨rfl, hget⟩
  | abs b c =>
    have hget := readPort_of_inRange (m := s.mem) ((inRange_indexC c).2 h.2)
    rw [indexC_toNat] at hget
    exact ⟨rfl, congrArg (Option.map absValue) hget⟩
  | write b cp d =>
    obtain ⟨hb, htarget, hsrc⟩ := h
    have hptr := readPort_of_inRange (m := s.mem) ((inRange_indexB b).2 hb)
    rw [indexB_toNat] at hptr
    refine ⟨?_, readPort_of_inRange hsrc⟩
    simp only [instrPorts, hptr, Option.map_some, writeOf, Int.toNat_of_nonneg htarget.1]

/-- Without the write enable the write port changes no cell. -/
theorem writePort_of_not_we {p : ArrayPorts} (h : p.we ≠ true) (m : Memory) : writePort m p = m := by
  simp only [writePort, Bool.eq_false_iff.2 h]

theorem writePort_of_we {p : ArrayPorts} {a : Nat} {v : Int} (hwe : p.we = true) (ha : p.waddr = some (a : Int))
    (hv : p.wdata = some v) (m : Memory) : writePort m p = m.set a v := by
  simp only [writePort, hwe, ha, hv, Int.toNat_natCast]

theorem portsOf_of_decoded {s : State} {w : Word} {i : Instr} (hs : s.status = .running) (hf : fetch s = .word w)
    (hd : decodeWord w = .ok i) : portsOf s = instrPorts s.straps s.mem i := by
  simp only [portsOf, hs, hf, hd]

/-- A write enable in a step is that of the legal word it runs. -/
theorem exists_decoded_of_we {s : State} (h : (portsOf s).we = true) :
    s.status = .running ∧ ∃ w i, fetch s = .word w ∧ decodeWord w = .ok i := by
  have hidle : portsOf s ≠ idlePorts := by
    intro he
    rw [he] at h
    cases h
  cases hs : s.status with
  | halted => exact absurd (by simp only [portsOf, hs]) hidle
  | failed => exact absurd (by simp only [portsOf, hs]) hidle
  | running =>
    cases hf : fetch s with
    | endOfStream => exact absurd (by simp only [portsOf, hs, hf]) hidle
    | partialWord n => exact absurd (by simp only [portsOf, hs, hf]) hidle
    | word w =>
      cases hd : decodeWord w with
      | ok i => exact ⟨rfl, w, i, rfl, hd⟩
      | error e => exact absurd (by simp only [portsOf, hs, hf, hd]) hidle

theorem portsOf_we_iff (s : State) : (portsOf s).we = true ↔
    s.status = .running ∧ ∃ w i, fetch s = .word w ∧ decodeWord w = .ok i ∧ Completes i s := by
  constructor
  · intro h
    obtain ⟨hs, w, i, hf, hd⟩ := exists_decoded_of_we h
    rw [portsOf_of_decoded hs hf hd, instrPorts_we_iff] at h
    exact ⟨hs, w, i, hf, hd, h⟩
  · rintro ⟨hs, w, i, hf, hd, hc⟩
    rw [portsOf_of_decoded hs hf hd, instrPorts_we_iff]
    exact hc

/-- A step with the write enable makes the write port's write. -/
theorem step_of_we {s : State} (h : (portsOf s).we = true) : ∃ (a : Nat) (v : Int), a < 1024 ∧
    (portsOf s).waddr = some (a : Int) ∧ (portsOf s).wdata = some v ∧
    step s = .next (advanceWith s (s.mem.set a v)) := by
  obtain ⟨hs, w, i, hf, hd, hc⟩ := (portsOf_we_iff s).1 h
  obtain ⟨haddr, hdata⟩ := instrPorts_write_of_completes hc
  rw [← portsOf_of_decoded hs hf hd] at haddr hdata
  exact ⟨_, _, (writeAddress_of_completes hc).2, haddr, hdata, (step_of_decoded hs hf hd).trans (exec_of_completes hc)⟩

/-- A step without the write enable changes no cell. -/
theorem step_mem_of_not_we {s t : State} (h : step s = .next t) (hwe : (portsOf s).we ≠ true) : t.mem = s.mem := by
  obtain hmem | ⟨w, i, hs, hf, hd, hc, -⟩ := stepOrStay_mem_cases s
  · rwa [stepOrStay_of_next h] at hmem
  · exact absurd ((portsOf_we_iff s).2 ⟨hs, w, i, hf, hd, hc⟩) hwe

/-- Settles O36, by the write enable: with it the step makes the port's write, without it none. -/
theorem writeEnableGovernsArray : Obligations.WriteEnableGovernsArray := by
  refine fun s => ⟨portsOf_we_iff s, fun t h => ?_, fun t h hwe => ?_, fun hwe => ?_⟩
  · by_cases hwe : (portsOf s).we = true
    · obtain ⟨a, v, -, ha, hv, hstep⟩ := step_of_we hwe
      cases hstep.symm.trans h
      rw [writePort_of_we hwe ha hv, advanceWith_mem]
    · rw [writePort_of_not_we hwe, step_mem_of_not_we h hwe]
  · exact step_mem_of_not_we h (Bool.eq_false_iff.1 hwe)
  · obtain ⟨a, v, hlt, ha, hv, hstep⟩ := step_of_we hwe
    refine ⟨a, v, Nat.le_of_lt_succ hlt, ha, hv, _, hstep, ?_, fun x hx => ?_⟩
    · rw [advanceWith_mem, Memory.get_set, if_pos rfl]
    · rw [advanceWith_mem, Memory.get_set, if_neg hx]

end Sys2Proof.Proofs

/-! ## Whole runs (40_step_and_dispatch.md section 2, 20_memory.md section 6)

How a run ends (R87), that it is the fold of its words (R88), and what its cells hold (R40). -/

namespace Sys2Proof.Proofs

open Sys2Proof Sys2Proof.Machine Sys2Proof.Safety

/-! ### While a run is Running -/

theorem runSteps_add (m n : Nat) (s : State) : runSteps (m + n) s = runSteps n (runSteps m s) := by
  induction n with
  | zero => rfl
  | succ n ih => rw [← Nat.add_assoc, runSteps_succ, ih, ← runSteps_succ]

theorem next_of_running {s : State} (hs : s.status = .running) : step s = .next (stepOrStay s) := by
  obtain ⟨t, ht⟩ := step_running hs
  rw [ht, stepOrStay_of_next ht]

/-- Only a Running state is followed by a Running one. -/
theorem running_of_running_succ {s : State} {n : Nat} (h : (runSteps (n + 1) s).status = .running) :
    (runSteps n s).status = .running := by
  by_contra hn
  rw [runSteps_succ, stepOrStay_of_not_running hn] at h
  exact hn h

theorem running_of_running_le {s : State} {n k : Nat} (h : (runSteps n s).status = .running) (hk : k ≤ n) :
    (runSteps k s).status = .running := by
  induction n with
  | zero => rwa [Nat.le_zero.1 hk]
  | succ n ih =>
    obtain hlt | rfl := Nat.lt_or_eq_of_le hk
    · exact ih (running_of_running_succ h) (Nat.le_of_lt_succ hlt)
    · exact h

/-- A step into Running moves the cursor by one word (R84). -/
theorem pc_of_running_succ {s : State} {n : Nat} (h : (runSteps (n + 1) s).status = .running) :
    (runSteps (n + 1) s).pc = (runSteps n s).pc + 8 := by
  obtain ⟨t, ht, hpc, -⟩ := cursorAdvancesByEight _ (running_of_running_succ h)
  rw [runSteps_succ, stepOrStay_of_next ht] at h ⊢
  exact hpc h

/-- A state that is still Running after `n` steps has executed `n` words. -/
theorem pc_of_running {s : State} {n : Nat} (h : (runSteps n s).status = .running) :
    (runSteps n s).pc = s.pc + 8 * n := by
  induction n with
  | zero => rfl
  | succ n ih => rw [pc_of_running_succ h, ih (running_of_running_succ h)]; omega

/-! ### How a run ends -/

section Launched

variable {straps : Config.Straps} {stream : List Byte} {s : State} (hl : launch straps stream = .ok s)
include hl

theorem launch_pc : s.pc = 0 := by rw [launch_eq_resetWith hl, State.resetWith_pc]

theorem launch_status : s.status = .running := by rw [launch_eq_resetWith hl, State.resetWith_status]

theorem run_pc_of_running {n : Nat} (h : (runSteps n s).status = .running) : (runSteps n s).pc = 8 * n := by
  rw [pc_of_running h, launch_pc hl, Nat.zero_add]

theorem run_stream (n : Nat) : (runSteps n s).stream = stream := by rw [runSteps_stream, launch_stream hl]

theorem stepBound_eq : stepBound s = stream.length / 8 + 1 := by rw [stepBound, launch_stream hl]

/-- A run is Running for no more steps than it has whole words. -/
theorem le_words_of_running {n : Nat} (h : (runSteps n s).status = .running) : n ≤ stream.length / 8 := by
  have hle := (engineInv_runSteps hl n).pc_le
  rw [run_stream hl, run_pc_of_running hl h] at hle
  omega

/-- A run ends after the `N` words it completes, within `L / 8 + 1` steps (R87). -/
theorem exists_last_running : ∃ N, N ≤ stream.length / 8 ∧ (∀ n, n ≤ N → (runSteps n s).status = .running) ∧
    (runSteps (N + 1) s).status ≠ .running := by
  have hend : ∃ n, (runSteps n s).status ≠ .running :=
    ⟨stream.length / 8 + 1, fun h => absurd (le_words_of_running hl h) (by omega)⟩
  have hspec := Nat.find_spec hend
  cases hfind : Nat.find hend with
  | zero =>
    rw [hfind] at hspec
    exact absurd (launch_status hl) hspec
  | succ N =>
    rw [hfind] at hspec
    have hbefore : ∀ n, n ≤ N → (runSteps n s).status = .running := fun n hn =>
      not_not.1 (Nat.find_min hend (by omega))
    exact ⟨N, le_words_of_running hl (hbefore N le_rfl), hbefore, hspec⟩

/-- The three outcomes of a run, by the step after its last completed word: the halt, the fault at a tail, the fault
at a word. -/
theorem run_outcome : ∃ N, (∀ n, n ≤ N → (runSteps n s).status = .running ∧ (runSteps n s).pc = 8 * n) ∧
    (∀ n, N < n → runSteps n s = runToEnd s) ∧
    ((N = stream.length / 8 ∧ stream.length % 8 = 0 ∧ runToEnd s = halt (runSteps N s)) ∨
     (N = stream.length / 8 ∧ stream.length % 8 ≠ 0 ∧ runToEnd s = raiseFault (runSteps N s) .truncatedStream) ∨
     (N < stream.length / 8 ∧ ∃ k, (k = .unknownOpcode ∨ k = .addressOutOfRange) ∧
        runToEnd s = raiseFault (runSteps N s) k)) := by
  obtain ⟨N, hN, hrun, hend⟩ := exists_last_running hl
  have hstay : ∀ n, N < n → runSteps n s = runSteps (N + 1) s := fun n hn => by
    rw [← Nat.add_sub_of_le (Nat.succ_le_of_lt hn), runSteps_add, runSteps_of_not_running hend]
  have hlast : runToEnd s = runSteps (N + 1) s := by
    rw [runToEnd, stepBound_eq hl]
    exact hstay _ (by omega)
  have hpc := run_pc_of_running hl (hrun N le_rfl)
  have hstep : step (runSteps N s) = .next (runToEnd s) := by
    rw [hlast, runSteps_succ]
    exact next_of_running (hrun N le_rfl)
  refine ⟨N, fun n hn => ⟨hrun n hn, run_pc_of_running hl (hrun n hn)⟩, fun n hn => by rw [hstay n hn, hlast], ?_⟩
  obtain ⟨hs, hcase⟩ := step_cases hstep
  rw [run_stream hl, hpc] at hcase
  obtain ⟨hat, ht⟩ | ⟨hne, hlt, ht⟩ | ⟨hge, w, -, ⟨-, ht⟩ | ⟨i, -, ⟨-, ht⟩ | ⟨-, ht⟩⟩⟩ := hcase
  · exact .inl ⟨by omega, by omega, ht⟩
  · exact .inr (.inl ⟨by omega, by omega, ht⟩)
  · exact .inr (.inr ⟨by omega, _, .inl rfl, ht⟩)
  · rw [← hlast, ht, advanceWith_status] at hend
    exact absurd hs hend
  · exact .inr (.inr ⟨by omega, _, .inr rfl, ht⟩)

end Launched

theorem run_faultKind_of_running {straps : Config.Straps} {stream : List Byte} {s : State}
    (hl : launch straps stream = .ok s) {n : Nat} (h : (runSteps n s).status = .running) :
    (runSteps n s).faultKind = none :=
  ((recordConsistent_of_running h).1 (engineInv_runSteps hl n).record).1

/-- Settles O41, by the three outcomes. -/
theorem runTerminatesWithOutcome : Obligations.RunTerminatesWithOutcome := by
  intro straps stream s hl t words
  obtain ⟨N, hrun, hend, hout⟩ := run_outcome hl
  obtain ⟨hs, hpc⟩ := hrun N le_rfl
  have hindex : (runSteps N s).pc / 8 = N := by omega
  have hbound : N < stepBound s := by rw [stepBound_eq hl]; omega
  change ∀ n, N < n → runSteps n s = t at hend
  change (_ ∧ _ ∧ t = _) ∨ (_ ∧ _ ∧ t = _) ∨ (_ ∧ ∃ k, _ ∧ t = _) at hout
  have hstay : ∀ n, stepBound s ≤ n → runSteps n s = t := fun n hn => hend n (by omega)
  clear_value t
  obtain ⟨hN, hmod, rfl⟩ | ⟨hN, hmod, rfl⟩ | ⟨hN, k, hk, rfl⟩ := hout
  · have hat : (runSteps N s).pc = stream.length := by omega
    exact ⟨nofun, hstay, .inl ⟨rfl, hmod, hat, run_faultKind_of_running hl hs, fun n hn => hrun n (hN ▸ hn)⟩⟩
  · exact ⟨nofun, hstay, .inr (.inr ⟨rfl, rfl, hmod, hindex.trans hN, fun n hn => hrun n (hN ▸ hn)⟩)⟩
  · refine ⟨nofun, hstay, .inr (.inl ⟨rfl, ?_, ?_, ?_, ?_, ?_⟩)⟩ <;>
      simp only [raiseFault_faultKind, raiseFault_faultIndex, raiseFault_mem, hindex, Option.some.injEq]
    · exact hk
    · exact hN
    · exact hrun
    · exact hend (N + 1) N.lt_succ_self

/-- Settles O12: a tail is a partial word of its length, and of the three outcomes the one at a tail is its fault. -/
theorem truncatedTailFaults : Obligations.TruncatedTailFaults := by
  refine ⟨fun s hs hlt hshort => ?_, fun straps stream s hl => ?_⟩
  · have hf := fetch_of_tail (s := s) (by omega) (by omega)
    refine ⟨hf, ?_⟩
    simp only [step, hs, hf, raiseFault]
  · obtain ⟨N, hrun, hend, ⟨hN, hmod, ht⟩ | ⟨hN, hmod, ht⟩ | ⟨hN, k, hk, ht⟩⟩ := run_outcome hl
    · have hkind : (runToEnd s).faultKind ≠ some .truncatedStream := by
        rw [ht, halt_faultKind, run_faultKind_of_running hl (hrun N le_rfl).1]
        nofun
      exact ⟨iff_of_false hkind fun h => h.1 hmod, fun h => absurd h hkind⟩
    · rw [← hN, ht]
      exact ⟨iff_of_true rfl ⟨hmod, (hrun N le_rfl).1⟩, fun _ => rfl⟩
    · have hkind : (runToEnd s).faultKind ≠ some .truncatedStream := by
        rw [ht, raiseFault_faultKind]
        obtain rfl | rfl := hk <;> nofun
      have hstatus : (runSteps (stream.length / 8) s).status ≠ .running := by
        rw [hend _ hN, ht, raiseFault_status]
        nofun
      exact ⟨iff_of_false hkind fun h => hstatus h.2, fun h => absurd h hkind⟩

/-! ### The run as the fold of its words -/

/-- At the start of word number `k` fetch delivers it, whatever tail follows the words (R33, R82). -/
theorem fetch_streamOf_append {s : State} {words : List Word} {tail : List Byte} {k : Nat}
    (hS : s.stream = streamOf words ++ tail) (hpc : s.pc = 8 * k) (hk : k < words.length) :
    fetch s = .word words[k] := by
  have hle : 8 * k ≤ (streamOf words).length := by rw [streamOf_length]; omega
  apply fetch_of_splitWord (rest := streamOf (words.drop (k + 1)) ++ tail)
  rw [hS, hpc, List.drop_append_of_le_length hle, streamOf_drop, List.drop_eq_getElem_cons hk, streamOf_cons,
    List.append_assoc, splitWord_bytesOfWord]

/-- The fold's semantics of a word is the step that fetches it. -/
theorem foldWord_eq_stepOrStay {s : State} {w : Word} (hf : s.status = .running → fetch s = .word w) :
    foldWord s w = stepOrStay s := by
  cases hs : s.status with
  | halted => simp only [foldWord, stepOrStay, step, hs]
  | failed => simp only [foldWord, stepOrStay, step, hs]
  | running =>
    obtain ⟨i, hd, -, -⟩ | ⟨hd, -⟩ := decodeWord_cases w
    · simp only [foldWord, stepOrStay, step, hs, hf hs, hd]
    · simp only [foldWord, stepOrStay, step, hs, hf hs, hd]

/-- The fold's end is the step after the last whole word. -/
theorem foldEnd_eq_stepOrStay {s : State} {tail : List Byte} (htail : tail.length < 8)
    (hpc : s.status = .running → s.stream.length = s.pc + tail.length) : foldEnd tail s = stepOrStay s := by
  cases hs : s.status with
  | halted => simp only [foldEnd, stepOrStay, step, hs]
  | failed => simp only [foldEnd, stepOrStay, step, hs]
  | running =>
    have hlen := hpc hs
    simp only [foldEnd, hs]
    split
    · next he =>
      rw [he, List.length_nil] at hlen
      rw [stepOrStay_of_next (step_at_end hs hlen.symm)]
    · next hne =>
      have hpos := List.length_pos_iff.2 hne
      have hstep := (truncatedTailFaults.1 s hs (by omega) (by omega)).2
      rw [stepOrStay_of_next hstep]
      rfl

section Words

variable {straps : Config.Straps} {words : List Word} {tail : List Byte} {s : State}
  (hl : launch straps (streamOf words ++ tail) = .ok s)
include hl

/-- A run that is still Running at word number `n` fetches that word. -/
theorem run_fetch_of_running {n : Nat} (hn : n < words.length) (h : (runSteps n s).status = .running) :
    fetch (runSteps n s) = .word words[n] :=
  fetch_streamOf_append (run_stream hl n) (run_pc_of_running hl h) hn

/-- After `n` steps the run is where the fold of the first `n` words is. -/
theorem foldl_take_eq_runSteps {n : Nat} (hn : n ≤ words.length) :
    (words.take n).foldl foldWord s = runSteps n s := by
  induction n with
  | zero => rfl
  | succ n ih =>
    rw [List.take_succ_eq_append_getElem hn, List.foldl_append, ih (Nat.le_of_succ_le hn), List.foldl_cons,
      List.foldl_nil, foldWord_eq_stepOrStay (run_fetch_of_running hl hn), runSteps_succ]

theorem runToEnd_eq_runFold (htail : tail.length < 8) : runToEnd s = runFold words tail s := by
  have hlen : (streamOf words ++ tail).length = 8 * words.length + tail.length := by
    rw [List.length_append, streamOf_length]
  have hfold := foldl_take_eq_runSteps hl le_rfl
  rw [List.take_length] at hfold
  have hbound : stepBound s = words.length + 1 := by rw [stepBound_eq hl, hlen]; omega
  rw [runFold, hfold, runToEnd, hbound, runSteps_succ, foldEnd_eq_stepOrStay htail]
  intro hs
  rw [run_stream hl, run_pc_of_running hl hs, hlen]

end Words

/-- Settles O42: the fold follows the run word by word, and the run is at a word while no step before it ended it. -/
theorem runIsFoldOfWords : Obligations.RunIsFoldOfWords := by
  intro straps words tail s htail hl
  refine ⟨runToEnd_eq_runFold hl htail, fun n w hw => ⟨⟨fun h k hk => ?_, fun h => ?_⟩, ?_⟩⟩
  · exact running_of_running_le h hk
  · cases n with
    | zero => exact launch_status hl
    | succ n => exact h n n.lt_succ_self
  · obtain ⟨hn, rfl⟩ := List.getElem?_eq_some_iff.1 hw
    exact run_fetch_of_running hl hn

/-! ### The latest write to a cell -/

/-- A completed write leaves in its cell the value of the instruction that made it. -/
theorem wroteAt_value {s : State} {n a : Nat} (h : WroteAt s n a) : ∃ w i, fetch (runSteps n s) = .word w ∧
    decodeWord w = .ok i ∧ (runSteps (n + 1) s).mem.get a = (writeOf i (runSteps n s)).2 := by
  obtain ⟨w, i, hs, hf, hd, hnext, haddr⟩ := h
  refine ⟨w, i, hf, hd, ?_⟩
  rw [runSteps_succ] at hnext ⊢
  have hstep := step_of_decoded hs hf hd
  obtain ⟨hc, he⟩ | ⟨-, he⟩ := exec_cases i (runSteps n s) <;> rw [stepOrStay_of_next (hstep.trans he)] at hnext ⊢
  · have hcell : (writeOf i (runSteps n s)).1 = a :=
      Int.ofNat.inj (Option.some.inj ((writeAddress_of_completes hc).1.symm.trans haddr))
    rw [advanceWith_mem, Memory.get_set, if_pos hcell.symm]
  · cases hnext

/-- Settles O44, by induction on the number of steps: a step that writes the cell is the latest write, and one that does
not leaves its value. -/
theorem cellHoldsLatestWrite : Obligations.CellHoldsLatestWrite := by
  intro straps stream s n a hl
  induction n with
  | zero =>
    have h0 : s.mem.get a = 0 := (memoryIsolation.1 straps stream s a hl).1
    exact .inl ⟨fun k hk => absurd hk (Nat.not_lt_zero k), h0⟩
  | succ n ih =>
    by_cases hw : WroteAt s n a
    · obtain ⟨w, i, hf, hd, hval⟩ := wroteAt_value hw
      exact .inr ⟨n, w, i, n.lt_succ_self, hw, fun j _ _ => by omega, hf, hd, hval⟩
    · have hkeep : (runSteps (n + 1) s).mem.get a = (runSteps n s).mem.get a := by
        by_contra hne
        exact hw (wroteAt_of_get_ne hne)
      rw [hkeep]
      obtain ⟨hnone, h0⟩ | ⟨k, w, i, hk, hwk, hlast, hrest⟩ := ih
      · refine .inl ⟨fun k hk => ?_, h0⟩
        obtain hlt | rfl := Nat.lt_succ_iff_lt_or_eq.1 hk
        · exact hnone k hlt
        · exact hw
      · refine .inr ⟨k, w, i, Nat.lt_succ_of_lt hk, hwk, fun j hkj hj => ?_, hrest⟩
        obtain hlt | rfl := Nat.lt_succ_iff_lt_or_eq.1 hj
        · exact hlast j hkj hlt
        · exact hw

end Sys2Proof.Proofs

/-! ## Reset and the host (10_state.md section 9, 70_reset_and_hazards.md)

The state reset establishes, from wherever it is applied (R25, R141), and what the host sees (R146, R147). -/

namespace Sys2Proof.Proofs

open Sys2Proof Sys2Proof.Machine Sys2Proof.Safety

/-- Settles O45, by the fields of the reset states. -/
theorem resetValues : Obligations.ResetValues := fun straps stream =>
  ⟨Memory.get_nil, State.resetWith_mem_wf straps stream, rfl, rfl, rfl, rfl, rfl, rfl, rfl, rfl, rfl, Memory.get_nil,
    rfl, rfl⟩

/-- Settles O46: reset does not read the state it is applied in, and no step leaves a state that is not Running. -/
theorem resetFromAnyState : Obligations.ResetFromAnyState := by
  refine fun s straps stream => ⟨fun hlen => if_pos hlen, fun _ => rfl, fun hs n => ?_⟩
  have hne : s.status ≠ .running := by
    obtain h | h := hs <;> rw [h] <;> nofun
  rw [runSteps_of_not_running hne]

theorem snapshot_of_not_legalRange {s : State} {start stop : Nat} (hs : s.status = .halted)
    (hr : ¬ LegalRange start stop) : snapshot s start stop = .rangeError := by
  simp only [snapshot, hs, if_neg hr]

/-- Settles O47: a legal request is answered with data, an illegal one with the range error. -/
theorem snapshotRangeChecked : Obligations.SnapshotRangeChecked := by
  intro s start stop hs
  by_cases hr : LegalRange start stop
  · rw [snapshot_of_legalRange hs hr]
    exact ⟨iff_of_false nofun (not_not.2 hr), iff_of_true ⟨_, rfl⟩ hr⟩
  · rw [snapshot_of_not_legalRange hs hr]
    exact ⟨iff_of_true rfl hr, iff_of_false nofun hr⟩

/-- Settles O49, by the three values of the run state. -/
theorem hostSeesEndOnly : Obligations.HostSeesEndOnly := by
  refine fun s => ⟨fun hs => ?_, fun hs => ?_, fun hs => ?_⟩ <;> rw [hostView, hs]

end Sys2Proof.Proofs

/-! ## The encoder's text (30_encoding.md section 5)

How a text is cut into lines and tokens, which lines are accepted and as what, and what the encoder makes of a program
(R66 to R76). -/

namespace Sys2Proof.Proofs

open Sys2Proof Sys2Proof.Machine Sys2Proof.Safety

/-! ### Lines and tokens -/

theorem linesFrom_append_newline (cur before after : List Char) :
    linesFrom cur (before ++ '\n' :: after) = linesFrom cur before ++ linesFrom [] after := by
  induction before generalizing cur with
  | nil => rfl
  | cons ch before ih =>
    simp only [List.cons_append, linesFrom]
    split
    · rw [ih, List.cons_append]
    · exact ih _

theorem linesFrom_of_not_mem (cur : List Char) {line : List Char} (h : '\n' ∉ line) :
    linesFrom cur line = [cur ++ line] := by
  induction line generalizing cur with
  | nil => rw [List.append_nil, linesFrom]
  | cons ch line ih =>
    obtain ⟨hch, hline⟩ := not_or.1 (mt List.mem_cons.2 h)
    rw [linesFrom, if_neg (Ne.symm hch), ih _ hline, List.append_assoc, List.singleton_append]

theorem tokensFrom_append_blank (cur before after : List Char) {ch : Char} (h : isBlank ch = true) :
    tokensFrom cur (before ++ ch :: after) = tokensFrom cur before ++ tokensFrom [] after := by
  induction before generalizing cur with
  | nil => simp only [List.nil_append, tokensFrom, h, if_true]
  | cons x before ih =>
    simp only [List.cons_append, tokensFrom]
    split
    · rw [ih, List.append_assoc]
    · exact ih _

theorem tokensFrom_of_not_blank (cur : List Char) {token : List Char} (h : ∀ ch ∈ token, isBlank ch = false) :
    tokensFrom cur token = flushToken (cur ++ token) := by
  induction token generalizing cur with
  | nil => rw [List.append_nil, tokensFrom]
  | cons ch token ih =>
    obtain ⟨hch, htoken⟩ := List.forall_mem_cons.1 h
    rw [tokensFrom, hch, if_neg Bool.false_ne_true, ih _ htoken, List.append_assoc, List.singleton_append]

/-- Settles O57, each clause by induction on the characters before the cut. -/
theorem textSplitsIntoLinesAndTokens : Obligations.TextSplitsIntoLinesAndTokens :=
  ⟨linesFrom_append_newline [], fun _ => linesFrom_of_not_mem [],
    fun before after _ => tokensFrom_append_blank [] before after,
    fun _ hne h => (tokensFrom_of_not_blank [] h).trans (if_neg hne), rfl⟩

/-! ### Operands -/

/-- A character of an operand's number (R69): those `digitValue` accepts, by `digitValue_of_isDecimal`. -/
def IsDecimal (ch : Char) : Prop := '0'.toNat ≤ ch.toNat ∧ ch.toNat ≤ '9'.toNat

/-- The number that decimal digits write after the value `acc`: that of `digitsFrom`, by `digitsFrom_of_isDecimal`. -/
def decimalFrom (acc : Int) (ds : List Char) : Int :=
  ds.foldl (fun acc ch => 10 * acc + ((ch.toNat : Int) - '0'.toNat)) acc

theorem digitValue_of_isDecimal {ch : Char} (h : IsDecimal ch) : digitValue ch = some (ch.toNat - 48) := if_pos h

theorem digitValue_of_not_isDecimal {ch : Char} (h : ¬ IsDecimal ch) : digitValue ch = none := if_neg h

/-- A digit's value as an integer. -/
theorem cast_digit_eq {ch : Char} (h : IsDecimal ch) (acc : Nat) :
    ((10 * acc + (ch.toNat - 48) : Nat) : Int) = 10 * (acc : Int) + ((ch.toNat : Int) - '0'.toNat) := by
  have hle : 48 ≤ ch.toNat := h.1
  have hzero : '0'.toNat = 48 := rfl
  rw [hzero]
  omega

theorem digitsFrom_of_isDecimal (acc : Nat) {ds : List Char} (hds : ∀ ch ∈ ds, IsDecimal ch) :
    ∃ n : Nat, digitsFrom acc ds = some n ∧ (n : Int) = decimalFrom acc ds := by
  induction ds generalizing acc with
  | nil => exact ⟨acc, rfl, rfl⟩
  | cons ch ds ih =>
    obtain ⟨hch, hds⟩ := List.forall_mem_cons.1 hds
    obtain ⟨n, hn, hval⟩ := ih (10 * acc + (ch.toNat - 48)) hds
    rw [cast_digit_eq hch] at hval
    exact ⟨n, by rw [digitsFrom, digitValue_of_isDecimal hch]; exact hn, hval⟩

theorem isDecimal_of_digitsFrom {acc : Nat} {ds : List Char} {n : Nat} (h : digitsFrom acc ds = some n) :
    ∀ ch ∈ ds, IsDecimal ch := by
  induction ds generalizing acc with
  | nil => exact fun _ hmem => absurd hmem List.not_mem_nil
  | cons ch ds ih =>
    by_cases hch : IsDecimal ch
    · rw [digitsFrom, digitValue_of_isDecimal hch] at h
      exact List.forall_mem_cons.2 ⟨hch, ih h⟩
    · rw [digitsFrom, digitValue_of_not_isDecimal hch] at h
      cases h

theorem digits_of_isDecimal {ds : List Char} (hne : ds ≠ []) (hds : ∀ ch ∈ ds, IsDecimal ch) :
    ∃ n : Nat, digits ds = some n ∧ (n : Int) = decimalFrom 0 ds := by
  rw [digits, if_neg hne]
  exact digitsFrom_of_isDecimal 0 hds

theorem isDecimal_of_digits {ds : List Char} {n : Nat} (h : digits ds = some n) :
    ds ≠ [] ∧ ∀ ch ∈ ds, IsDecimal ch := by
  rw [digits] at h
  split at h
  · cases h
  · next hne => exact ⟨hne, isDecimal_of_digitsFrom h⟩

theorem operandOf_minus (ds : List Char) : operandOf ('-' :: ds) = (digits ds).map (fun v : Nat => -(v : Int)) := rfl

theorem operandOf_plus (ds : List Char) : operandOf ('+' :: ds) = (digits ds).map (fun v : Nat => (v : Int)) := rfl

theorem not_isDecimal_sign {ch : Char} (h : ch = '-' ∨ ch = '+') : ¬ IsDecimal ch := by
  obtain rfl | rfl := h <;> (rw [IsDecimal]; decide)

/-- A token of digits has no sign. -/
theorem operandOf_of_isDecimal {ds : List Char} (hne : ds ≠ []) (hds : ∀ ch ∈ ds, IsDecimal ch) :
    operandOf ds = (digits ds).map (fun v : Nat => (v : Int)) := by
  obtain ⟨ch, rest, rfl⟩ := List.exists_cons_of_ne_nil hne
  have hch : IsDecimal ch := hds ch (List.mem_cons_self ..)
  unfold operandOf
  split
  · next hsign => exact absurd hch (not_isDecimal_sign (.inl (List.cons.inj hsign).1))
  · next hsign => exact absurd hch (not_isDecimal_sign (.inr (List.cons.inj hsign).1))
  · rfl

/-- An operand's token is a number after an optional sign. -/
theorem operandOf_some_cases {t : List Char} {v : Int} (h : operandOf t = some v) :
    ∃ ds n, digits ds = some n ∧ (t = ds ∨ t = '+' :: ds ∨ t = '-' :: ds) := by
  unfold operandOf at h
  split at h
  all_goals obtain ⟨n, hn, -⟩ := Option.map_eq_some_iff.1 h
  · exact ⟨_, n, hn, .inr (.inr rfl)⟩
  · exact ⟨_, n, hn, .inr (.inl rfl)⟩
  · exact ⟨_, n, hn, .inl rfl⟩

/-- Settles O56: digits after an optional sign are an operand, and an operand's token has digits after its sign. -/
theorem operandTokensAreDecimal : Obligations.OperandTokensAreDecimal := by
  refine ⟨fun ds hne hds => ?_, fun t v h => ?_⟩
  · obtain ⟨n, hn, hval⟩ := digits_of_isDecimal hne hds
    change operandOf ds = some (decimalFrom 0 ds) ∧ operandOf ('+' :: ds) = some (decimalFrom 0 ds) ∧
      operandOf ('-' :: ds) = some (-decimalFrom 0 ds)
    rw [operandOf_of_isDecimal hne hds, operandOf_plus, operandOf_minus, hn, ← hval]
    exact ⟨rfl, rfl, rfl⟩
  · obtain ⟨ds, n, hn, ht⟩ := operandOf_some_cases h
    obtain ⟨hne, hds⟩ := isDecimal_of_digits hn
    exact ⟨ds, hne, hds, ht⟩

/-! ### Lines -/

/-- A token is a mnemonic only as that mnemonic's own text (R68). -/
theorem eq_mnemonicText_of_mnemonicOf {t : List Char} {m : Mnemonic} (h : mnemonicOf t = some m) :
    t = mnemonicText m := by
  unfold mnemonicOf at h
  split_ifs at h with hload hread hwrite habs <;> cases h
  · exact hload
  · exact hread
  · exact hwrite
  · exact habs

theorem mnemonicText_mem (m : Mnemonic) :
    mnemonicText m ∈ [mnemonicText .load, mnemonicText .read, mnemonicText .write, mnemonicText .abs] := by
  cases m <;> decide

theorem mnemonicOf_eq_none {t : List Char}
    (h : t ∉ [mnemonicText .load, mnemonicText .read, mnemonicText .write, mnemonicText .abs]) :
    mnemonicOf t = none := by
  cases hm : mnemonicOf t with
  | none => rfl
  | some m => exact absurd (eq_mnemonicText_of_mnemonicOf hm ▸ mnemonicText_mem m) h

/-- Accepted operands are two integers, or three for WRITE (R66, R76). -/
theorem operandsOf_ok_cases {m : Mnemonic} {ts : List (List Char)} {a : AsmInstr} (h : operandsOf m ts = .ok a) :
    ∃ b c more, ts.map operandOf = some b :: some c :: more ∧ (more = [] ∨ m = .write ∧ ∃ d, more = [some d]) := by
  unfold operandsOf at h
  split at h
  case h_1 b c hts => exact ⟨b, c, [], hts, .inl rfl⟩
  case h_2 b c hts => exact ⟨b, c, [], hts, .inl rfl⟩
  case h_3 b c hts => exact ⟨b, c, [], hts, .inl rfl⟩
  case h_4 b c hts => exact ⟨b, c, [], hts, .inl rfl⟩
  case h_5 b c d hts => exact ⟨b, c, [some d], hts, .inr ⟨rfl, d, rfl⟩⟩
  case h_6 => cases h

theorem operandsOf_error {m : Mnemonic} {ts : List (List Char)} {e : AsmErrorKind} (h : operandsOf m ts = .error e) :
    e = .malformedLine := by
  unfold operandsOf at h
  split at h <;> cases h
  rfl

/-- Surplus operands, and ones that are no integers, are refused (R69, R76). -/
theorem operandsOf_malformed {m : Mnemonic} {ts : List (List Char)}
    (h : (if m = .write then 3 else 2) < ts.length ∨ ∃ t ∈ ts, operandOf t = none) :
    operandsOf m ts = .error .malformedLine := by
  cases ho : operandsOf m ts with
  | error e => rw [operandsOf_error ho]
  | ok a =>
    obtain ⟨b, c, more, hts, hmore⟩ := operandsOf_ok_cases ho
    have hlen : ts.length = more.length + 2 := by
      have := congrArg List.length hts
      rwa [List.length_map] at this
    obtain hlong | ⟨t, ht, hnone⟩ := h
    · obtain rfl | ⟨rfl, d, rfl⟩ := hmore
      · rw [hlen, List.length_nil] at hlong
        split at hlong <;> omega
      · rw [hlen, if_pos rfl, List.length_singleton] at hlong
        omega
    · have hmem : none ∈ ts.map operandOf := hnone ▸ List.mem_map_of_mem ht
      rw [hts] at hmem
      obtain rfl | ⟨-, d, rfl⟩ := hmore <;> simp at hmem

/-- A line with fewer than three tokens is skipped (R67). -/
theorem parseLine_of_short {line : List Char} (h : (tokens line).length < 3) : parseLine line = .ok none := by
  unfold parseLine
  split
  · next ht =>
    simp only [ht, List.length_cons] at h
    omega
  · rfl

/-- What the tokens of a line are that is accepted. -/
theorem tokens_of_accepted {line : List Char} {a : AsmInstr} (h : parseLine line = .ok (some a)) :
    ∃ m b c rest, tokens line = mnemonicText m :: b :: c :: rest ∧ operandsOf m (b :: c :: rest) = .ok a := by
  unfold parseLine at h
  split at h
  · next t b c rest ht =>
    cases hm : mnemonicOf t with
    | none => rw [hm] at h; cases h
    | some m =>
      cases ho : operandsOf m (b :: c :: rest) with
      | error e => simp only [hm, ho, reduceCtorEq] at h
      | ok a' =>
        simp only [hm, ho, Except.ok.injEq, Option.some.injEq] at h
        exact ⟨m, b, c, rest, eq_mnemonicText_of_mnemonicOf hm ▸ ht, by rw [ho, h]⟩
  · cases h

/-- The line of a mnemonic and two or more operand tokens. -/
theorem parseLine_of_mnemonic {line : List Char} {m : Mnemonic} {rest : List (List Char)}
    (h : tokens line = mnemonicText m :: rest) (hr : 2 ≤ rest.length) :
    parseLine line = (operandsOf m rest).map some := by
  rw [parseLine_of_tokens h hr, mnemonicOf_text]

/-- Settles O53: a line's answer by its tokens, and the batch's by its first line in error. -/
theorem encoderErrorsAbortBatch : Obligations.EncoderErrorsAbortBatch := by
  refine ⟨fun line => parseLine_of_short, fun line t rest h hr hnone => ?_, fun line m rest h hr hbad => ?_,
    fun text => ?_, fun text err => ?_⟩
  · rw [parseLine_of_tokens h hr, mnemonicOf_eq_none hnone]
  · rw [parseLine_of_mnemonic h hr, operandsOf_malformed hbad]
    rfl
  · simp only [assemble_ok_iff, exists_and_left, exists_eq, and_true]
  · rw [assemble_error_iff, parseLines_error_iff]
    constructor
    · rintro ⟨k, line, hk, hrest⟩
      rw [Nat.zero_add] at hk
      subst hk
      exact ⟨line, hrest⟩
    · rintro ⟨line, hrest⟩
      exact ⟨err.line, line, (Nat.zero_add _).symm, hrest⟩

/-- Settles O55: the forms by the operands `operandsOf` takes, and no other by its accepted forms. -/
theorem acceptedFormsParse : Obligations.AcceptedFormsParse := by
  refine ⟨fun line tb tc b c hb hc => ⟨fun h => ?_, fun h => ?_, fun h => ?_, fun h => ?_, fun td d hd h => ?_⟩,
    fun line a h => ?_⟩
  · rw [parseLine_of_mnemonic (m := .load) h le_rfl]
    simp only [operandsOf, List.map_cons, List.map_nil, hb, hc, Except.map]
  · rw [parseLine_of_mnemonic (m := .read) h le_rfl]
    simp only [operandsOf, List.map_cons, List.map_nil, hb, hc, Except.map]
  · rw [parseLine_of_mnemonic (m := .abs) h le_rfl]
    simp only [operandsOf, List.map_cons, List.map_nil, hb, hc, Except.map]
  · refine ⟨.write b c none, ?_, rfl, rfl⟩
    rw [parseLine_of_mnemonic (m := .write) h le_rfl]
    simp only [operandsOf, List.map_cons, List.map_nil, hb, hc, Except.map]
  · rw [parseLine_of_mnemonic (m := .write) h (by simp)]
    simp only [operandsOf, List.map_cons, List.map_nil, hb, hc, hd, Except.map]
  · obtain ⟨m, tb, tc, rest, ht, ho⟩ := tokens_of_accepted h
    obtain ⟨b, c, more, hts, hmore⟩ := operandsOf_ok_cases ho
    simp only [List.map_cons, List.cons.injEq] at hts
    obtain ⟨hb, hc, hrest⟩ := hts
    refine ⟨m, tb, tc, rest, b, c, ht, hb, hc, ?_⟩
    obtain rfl | ⟨hm, d, rfl⟩ := hmore
    · exact .inl (List.map_eq_nil_iff.1 hrest)
    · obtain ⟨td, rfl, hd⟩ := List.map_eq_singleton_iff.1 hrest
      exact .inr ⟨hm, td, d, rfl, hd⟩

/-! ### The log -/

/-- The packed word carries the opcode its log record names (R68, R75). -/
theorem logRecord_a_eq (a : AsmInstr) : (logRecord a).a = (decoder (packWord a)).opcode.toNat := by
  have hop := (decoder_op_eq_iff _ _).1 (op_of_decodeWord (decodeWord_packWord a))
  rw [hop]
  cases a <;> rfl

theorem logRecord_a_eq_mnemonicOpcode (a : AsmInstr) : (logRecord a).a = mnemonicOpcode (logRecord a).command := by
  cases a <;> rfl

theorem logRecord_d_isSome_iff (a : AsmInstr) : (logRecord a).d.isSome = true ↔ (logRecord a).command = .write := by
  cases a <;> simp [logRecord]

/-- Settles O54: record and word number `n` are those of accepted line number `n`. -/
theorem logRecordPerWord : Obligations.LogRecordPerWord := by
  refine ⟨fun text x hx => ?_, fun a => by cases a <;> rfl⟩
  obtain ⟨-, rfl⟩ := (assemble_ok_iff text x).1 hx
  refine ⟨rfl, by simp only [List.length_map], fun n r w hr hw => ?_⟩
  simp only [List.getElem?_map, Option.map_eq_some_iff] at hr hw
  obtain ⟨a, ha, rfl⟩ := hr
  obtain ⟨b, hb, rfl⟩ := hw
  obtain rfl : a = b := Option.some.inj (ha.symm.trans hb)
  exact ⟨logRecord_a_eq a, logRecord_a_eq_mnemonicOpcode a, logRecord_d_isSome_iff a⟩

/-! ### The source cell of an assembled WRITE -/

theorem ofNat_toNat_of_lt {n v : Nat} (h : v < 2 ^ n) : (BitVec.ofNat n v).toNat = v := by
  rw [BitVec.toNat_ofNat, Nat.mod_eq_of_lt h]

/-- Settles O29: operands that fit their fields come back as C' and D, and the raw source is `64 * C + D`. -/
theorem assembledWriteSource : Obligations.AssembledWriteSource := by
  intro c d hc hd
  have hshifted : writeSource .shifted (BitVec.ofNat 26 c) (BitVec.ofNat 6 d) = c := by
    rw [writeSource_eq, sourceIndex, ofNat_toNat_of_lt hc]
  have hraw : writeSource .raw (BitVec.ofNat 26 c) (BitVec.ofNat 6 d) = 64 * c + d := by
    rw [writeSource_eq, sourceIndex, ofNat_toNat_of_lt hc, ofNat_toNat_of_lt (n := 6) hd]
    rfl
  refine ⟨fun b => ?_, hshifted, ?_, hraw, ?_, fun cell => ?_⟩
  · simp only [asmInstrOf, writtenD, Option.getD_some, BitVec.ofInt_natCast]
  · rw [hshifted, InRange]
    omega
  · rw [hraw, InRange]
    omega
  · rw [hraw]
    omega

end Sys2Proof.Proofs

/-! ## The encoder's source (30_encoding.md section 5)

That a source in UTF-8 and its text determine each other (R66), and what the encoder makes of a source. -/

namespace Sys2Proof.Proofs

open Sys2Proof Sys2Proof.Machine Sys2Proof.Safety

/-! ### The bytes after a character's first -/

/-- The last `k` bytes of the character with code point `v`, six bits to a byte: those of `encodeUtf8Char` after its
first, by `encodeUtf8Char_eq`. -/
def tailBytes : Nat → Nat → List Byte
  | 0, _ => []
  | k + 1, v => utf8Octet (0x80 + v / 64 ^ k % 64) :: tailBytes k v

/-- What the decoder makes of the bytes after one of which `utf8Byte` said that `k` more are to come: `utf8From`, by
`utf8From_cons`. -/
def utf8After (k v least : Nat) (bytes : List Byte) : Option (List Char) :=
  match k with
  | 0 => (utf8Char least v).bind fun ch => (decodeUtf8 bytes).map fun cs => ch :: cs
  | k + 1 => utf8From (k + 1) v least bytes

theorem utf8From_cons (want acc least : Nat) (x : Byte) (rest : List Byte) :
    utf8From want acc least (x :: rest) =
      (utf8Byte want acc least x).bind fun r => utf8After r.1 r.2.1 r.2.2 rest := by
  rw [utf8From]
  cases utf8Byte want acc least x with
  | none => rfl
  | some r =>
    obtain ⟨k, v, l⟩ := r
    cases k with
    | zero =>
      simp only [Option.bind_some, utf8After, decodeUtf8]
      cases utf8Char l v <;> rfl
    | succ k => rfl

theorem eq_utf8Octet_iff (x : Byte) {n : Nat} (h : n < 256) : x = utf8Octet n ↔ x.toNat = n := by
  rw [← BitVec.toNat_inj, utf8Octet_toNat h]

/-- A byte that continues a character adds its six bits to the part read, and only such a byte does. -/
theorem utf8Byte_succ_iff (k acc least q : Nat) (x : Byte) :
    utf8Byte (k + 1) acc least x = some (k, q, least) ↔ x = utf8Octet (0x80 + q % 64) ∧ q / 64 = acc := by
  rw [utf8Byte, if_neg (Nat.succ_ne_zero k), eq_utf8Octet_iff x (by omega)]
  split
  · simp only [Option.some.injEq, Prod.mk.injEq, Nat.add_sub_cancel, true_and, and_true]
    omega
  · simp only [reduceCtorEq, false_iff]
    omega

theorem utf8Byte_succ_cases {k acc least : Nat} {x : Byte} {r : Nat × Nat × Nat}
    (h : utf8Byte (k + 1) acc least x = some r) : ∃ q, r = (k, q, least) := by
  rw [utf8Byte, if_neg (Nat.succ_ne_zero k)] at h
  split at h
  · exact ⟨_, (Option.some.inj h).symm⟩
  · cases h

theorem div_pow_succ (n k : Nat) : n / 64 ^ (k + 1) = n / 64 ^ k / 64 := by
  rw [Nat.pow_succ, Nat.div_div_eq_div_mul]

/-- The decoder completes a character exactly on its last bytes, the part read before being its upper bits. -/
theorem utf8After_iff (k v least : Nat) (bytes : List Byte) (text : List Char) :
    utf8After k v least bytes = some text ↔ ∃ ch cs rest, text = ch :: cs ∧ bytes = tailBytes k ch.toNat ++ rest ∧
      ch.toNat / 64 ^ k = v ∧ least ≤ ch.toNat ∧ decodeUtf8 rest = some cs := by
  induction k generalizing v bytes with
  | zero =>
    simp only [utf8After, Option.bind_eq_some_iff, Option.map_eq_some_iff, utf8Char_some_iff, tailBytes,
      List.nil_append, Nat.pow_zero, Nat.div_one]
    constructor
    · rintro ⟨ch, ⟨hl, hv⟩, cs, hcs, rfl⟩
      exact ⟨ch, cs, bytes, rfl, rfl, hv, hl.trans_eq hv.symm, hcs⟩
    · rintro ⟨ch, cs, rest, rfl, rfl, hv, hl, hcs⟩
      exact ⟨ch, ⟨hl.trans_eq hv, hv⟩, cs, hcs, rfl⟩
  | succ k ih =>
    simp only [utf8After, tailBytes, List.cons_append, div_pow_succ]
    cases bytes with
    | nil => simp [utf8From]
    | cons x bytes =>
      rw [utf8From_cons, Option.bind_eq_some_iff]
      constructor
      · rintro ⟨r, hr, hafter⟩
        obtain ⟨q, rfl⟩ := utf8Byte_succ_cases hr
        obtain ⟨ch, cs, rest, ht, rfl, hq, hl, hcs⟩ := (ih _ _).1 hafter
        obtain ⟨rfl, hacc⟩ := (utf8Byte_succ_iff ..).1 hr
        subst hq
        exact ⟨ch, cs, rest, ht, rfl, hacc, hl, hcs⟩
      · rintro ⟨ch, cs, rest, ht, hbytes, hacc, hl, hcs⟩
        obtain ⟨hx, rfl⟩ := List.cons.inj hbytes
        exact ⟨_, (utf8Byte_succ_iff ..).2 ⟨hx, hacc⟩, (ih _ _).2 ⟨ch, cs, rest, ht, rfl, rfl, hl, hcs⟩⟩

/-! ### A character's first byte -/

/-- The four forms of a first byte. -/
theorem utf8Lead_some_iff (x : Byte) (k v l : Nat) : utf8Lead x = some (k, v, l) ↔
    (k = 0 ∧ l = 0 ∧ x.toNat = v ∧ v < 0x80) ∨ (k = 1 ∧ l = 0x80 ∧ x.toNat = 0xC0 + v ∧ v < 0x20) ∨
    (k = 2 ∧ l = 0x800 ∧ x.toNat = 0xE0 + v ∧ v < 0x10) ∨ (k = 3 ∧ l = 0x10000 ∧ x.toNat = 0xF0 + v ∧ v < 0x8) := by
  unfold utf8Lead
  split_ifs <;> simp only [Option.some.injEq, Prod.mk.injEq, false_iff] <;> omega

theorem encodeUtf8Char_one {ch : Char} (h : ch.toNat < 0x80) :
    encodeUtf8Char ch = utf8Octet (ch.toNat / 64 ^ 0) :: tailBytes 0 ch.toNat := by
  simp only [encodeUtf8Char, if_pos h, tailBytes, Nat.pow_zero, Nat.div_one]

theorem encodeUtf8Char_two {ch : Char} (h : 0x80 ≤ ch.toNat) (h' : ch.toNat < 0x800) :
    encodeUtf8Char ch = utf8Octet (0xC0 + ch.toNat / 64 ^ 1) :: tailBytes 1 ch.toNat := by
  simp only [encodeUtf8Char, if_neg (Nat.not_lt.2 h), if_pos h', tailBytes, Nat.pow_zero, Nat.div_one, Nat.pow_one]

theorem encodeUtf8Char_three {ch : Char} (h : 0x800 ≤ ch.toNat) (h' : ch.toNat < 0x10000) :
    encodeUtf8Char ch = utf8Octet (0xE0 + ch.toNat / 64 ^ 2) :: tailBytes 2 ch.toNat := by
  have h1 : ¬ ch.toNat < 0x80 := by omega
  simp only [encodeUtf8Char, if_neg h1, if_neg (Nat.not_lt.2 h), if_pos h', tailBytes, Nat.pow_zero, Nat.div_one,
    Nat.pow_one, Nat.reducePow]

theorem encodeUtf8Char_four {ch : Char} (h : 0x10000 ≤ ch.toNat) :
    encodeUtf8Char ch = utf8Octet (0xF0 + ch.toNat / 64 ^ 3) :: tailBytes 3 ch.toNat := by
  have h1 : ¬ ch.toNat < 0x80 := by omega
  have h2 : ¬ ch.toNat < 0x800 := by omega
  simp only [encodeUtf8Char, if_neg h1, if_neg h2, if_neg (Nat.not_lt.2 h), tailBytes, Nat.pow_zero, Nat.div_one,
    Nat.pow_one, Nat.reducePow]

/-- The first byte of a character says how many follow, its upper bits, and a least code point no greater than it. -/
theorem encodeUtf8Char_eq (ch : Char) : ∃ x k l, encodeUtf8Char ch = x :: tailBytes k ch.toNat ∧
    utf8Lead x = some (k, ch.toNat / 64 ^ k, l) ∧ l ≤ ch.toNat := by
  have hlt := char_toNat_lt ch
  by_cases h1 : ch.toNat < 0x80
  · refine ⟨_, 0, 0, encodeUtf8Char_one h1, (utf8Lead_some_iff ..).2 (.inl ?_), Nat.zero_le _⟩
    rw [utf8Octet_toNat (by omega)]
    omega
  by_cases h2 : ch.toNat < 0x800
  · refine ⟨_, 1, 0x80, encodeUtf8Char_two (by omega) h2, (utf8Lead_some_iff ..).2 (.inr (.inl ?_)), by omega⟩
    rw [utf8Octet_toNat (by omega)]
    omega
  by_cases h3 : ch.toNat < 0x10000
  · refine ⟨_, 2, 0x800, encodeUtf8Char_three (by omega) h3, (utf8Lead_some_iff ..).2 (.inr (.inr (.inl ?_))),
      by omega⟩
    rw [utf8Octet_toNat (by omega)]
    omega
  · refine ⟨_, 3, 0x10000, encodeUtf8Char_four (by omega), (utf8Lead_some_iff ..).2 (.inr (.inr (.inr ?_))),
      by omega⟩
    rw [utf8Octet_toNat (by omega)]
    omega

/-- The upper bits and the least code point of a first byte fix the form of the character it begins. -/
theorem encodeUtf8Char_of_lead {x : Byte} {k l : Nat} {ch : Char}
    (h : utf8Lead x = some (k, ch.toNat / 64 ^ k, l)) (hl : l ≤ ch.toNat) :
    encodeUtf8Char ch = x :: tailBytes k ch.toNat := by
  obtain ⟨rfl, rfl, hx, hv⟩ | ⟨rfl, rfl, hx, hv⟩ | ⟨rfl, rfl, hx, hv⟩ | ⟨rfl, rfl, hx, hv⟩ :=
    (utf8Lead_some_iff ..).1 h
  · rw [encodeUtf8Char_one (by omega), ← (eq_utf8Octet_iff x (by omega)).2 hx]
  · rw [encodeUtf8Char_two hl (by omega), ← (eq_utf8Octet_iff x (by omega)).2 hx]
  · rw [encodeUtf8Char_three hl (by omega), ← (eq_utf8Octet_iff x (by omega)).2 hx]
  · rw [encodeUtf8Char_four hl, ← (eq_utf8Octet_iff x (by omega)).2 hx]

/-! ### A source and its text -/

theorem decodeUtf8_nil_iff (bytes : List Byte) : decodeUtf8 bytes = some [] ↔ bytes = [] := by
  cases bytes with
  | nil => exact iff_of_true rfl rfl
  | cons x bytes =>
    refine iff_of_false (fun h => ?_) (List.cons_ne_nil x bytes)
    rw [decodeUtf8, utf8From_cons, Option.bind_eq_some_iff] at h
    obtain ⟨r, -, hafter⟩ := h
    obtain ⟨ch, cs, -, hnil, -⟩ := (utf8After_iff ..).1 hafter
    cases hnil

theorem decodeUtf8_cons_iff (bytes : List Byte) (ch : Char) (cs : List Char) :
    decodeUtf8 bytes = some (ch :: cs) ↔ ∃ rest, bytes = encodeUtf8Char ch ++ rest ∧ decodeUtf8 rest = some cs := by
  constructor
  · intro h
    cases bytes with
    | nil => cases h
    | cons x bytes =>
      rw [decodeUtf8, utf8From_cons, Option.bind_eq_some_iff] at h
      obtain ⟨⟨k, v, l⟩, hlead, hafter⟩ := h
      obtain ⟨ch', cs', rest, ht, rfl, hv, hl, hcs⟩ := (utf8After_iff k v l bytes _).1 hafter
      subst hv
      obtain ⟨rfl, rfl⟩ := List.cons.inj ht
      exact ⟨rest, by rw [encodeUtf8Char_of_lead hlead hl, List.cons_append], hcs⟩
  · rintro ⟨rest, rfl, hcs⟩
    obtain ⟨x, k, l, henc, hlead, hl⟩ := encodeUtf8Char_eq ch
    rw [henc, List.cons_append, decodeUtf8, utf8From_cons, Option.bind_eq_some_iff]
    exact ⟨_, hlead, (utf8After_iff ..).2 ⟨ch, cs, rest, rfl, rfl, rfl, hl, hcs⟩⟩

/-- A source is that of the one text it decodes to. -/
theorem decodeUtf8_eq_some_iff (source : List Byte) (text : List Char) :
    decodeUtf8 source = some text ↔ encodeUtf8 text = source := by
  induction text generalizing source with
  | nil => rw [decodeUtf8_nil_iff, eq_comm]; rfl
  | cons ch cs ih =>
    simp only [decodeUtf8_cons_iff, ih, encodeUtf8, List.flatMap_cons]
    constructor
    · rintro ⟨rest, rfl, rfl⟩
      rfl
    · rintro rfl
      exact ⟨_, rfl, rfl⟩

/-! ### The encoder on a source -/

theorem decodeUtf8_encodeUtf8 (text : List Char) : decodeUtf8 (encodeUtf8 text) = some text :=
  (decodeUtf8_eq_some_iff _ _).2 rfl

theorem assembleSource_encodeUtf8 (text : List Char) :
    assembleSource (encodeUtf8 text) = (assemble text).mapError .line :=
  assembleSource_of_text (decodeUtf8_encodeUtf8 text)

theorem assembleSource_of_not_utf8 {source : List Byte} (h : ∀ text, encodeUtf8 text ≠ source) :
    assembleSource source = .error .notUtf8 := by
  cases hd : decodeUtf8 source with
  | none => simp only [assembleSource, hd]
  | some text => exact absurd ((decodeUtf8_eq_some_iff _ _).1 hd) (h text)

/-- Settles O58: a source and its text determine each other, and the encoder decodes the source first. -/
theorem sourceIsUtf8Text : Obligations.SourceIsUtf8Text := by
  refine ⟨decodeUtf8_encodeUtf8, fun source text => (decodeUtf8_eq_some_iff source text).1, fun text x => ?_,
    fun text e => ?_, fun source => assembleSource_of_not_utf8⟩
  · rw [assembleSource_encodeUtf8]
    cases assemble text <;> simp [Except.mapError]
  · rw [assembleSource_encodeUtf8]
    cases assemble text <;> simp [Except.mapError]

end Sys2Proof.Proofs
